-- ==== Sys2Proof/Word.lean ====
section
/-! DEFINITION. The word and byte types (spec/00_scope.md rules R7, R8, R9).

Words are plain `BitVec`s, so `+` is the `+32` of rule R9 and `&&&`, `^^^`, `~~~`, `>>>` are its bitwise operators. -/

namespace Sys2Proof

/-- A word: 32 bits, unsigned, arithmetic modulo 2^32 (R7, R8). -/
abbrev Word := BitVec 32

/-- The unit of MEM (R50). -/
abbrev Byte := BitVec 8

end Sys2Proof
end

