-- ==== Sys2Proof/Config.lean ====
section
/-! DEFINITION. What the spec leaves to the platform, as plain data, and the free values.

The platform's parameters are OPEN in the spec (spec/00_scope.md rule R7, spec/92_eei_decisions.md, table of open
parameters): the model takes them as an argument, held in `State.platform`, so that a statement about every state is a
statement about every platform. -/

namespace Sys2Proof

/-- `kind` of `Admit(addr, n, kind)` (R61). -/
inductive AccessKind where
  | read
  | write
  deriving DecidableEq, Repr

/-- One thing the platform admits. `Admit` is a predicate and `State` is plain data, so the predicate is written as a
finite list of these (log entry 7). -/
inductive Grant where
  /-- Every range inside `[base, base + size)`: a region the platform backs with memory throughout. -/
  | parts (base size : Nat) (kind : AccessKind)
  /-- The one range of `size` bytes at `base`, no part of it. -/
  | range (base size : Nat) (kind : AccessKind)
  deriving DecidableEq, Repr

/-- The open parameters of R7: `AW`, `REG_BASE`, and the part of `Admit` the platform decides. -/
structure Platform where
  aw      : Nat
  regBase : Nat
  grants  : List Grant
  deriving DecidableEq, Repr

/-- FREE VALUE (log entry 3). The word a STATE window read returns for an element that holds no value: "an
unspecified 32-bit value, which may differ from read to read" (R33). Applied to the draw counter of the state. -/
opaque Config.freeWord : Nat → Word

/-- FREE VALUE (log entry 4). Whether a digest byte that a mid-command reset may have caught holds its digest value
(`true`) or its old value (`false`), "unspecified which" (R242). Applied to the draw counter of the state. -/
opaque Config.freeBit : Nat → Bool

end Sys2Proof
end

