-- ==== Sys2Proof/Syntax.lean ====
section
/-! DEFINITION. The six commands (spec/30_encoding.md rules R81, R86, R90; spec/opcode_table.json).

A command word carries no operand (R80, R85), so no constructor has an argument: a command's operands are the operand
registers SRC, DST, LEN of the state it starts in, sampled at the write to CMD (R31, R92). -/

namespace Sys2Proof

/-- One constructor per row of the opcode map, in its order (R86). -/
inductive Instr where
  | init
  | update
  | updateMulti
  | updateLast
  | finish
  | hash
  deriving DecidableEq, Repr

end Sys2Proof
end

