-- ==== Sys2Proof/WellFormed.lean ====
section
/-! DEFINITION. Well-formedness of what comes from outside the engine.

A command has no field, so every command is well formed; what can be ill formed is the platform (R7, R61). -/

namespace Sys2Proof

/-- Every command is well formed: a command word has no operand field to be out of range (R85). -/
def Instr.wellFormed : Instr → Bool
  | .init => true
  | .update => true
  | .updateMulti => true
  | .updateLast => true
  | .finish => true
  | .hash => true

/-- `1 <= AW <= 64` (R7). -/
def Platform.awOk (p : Platform) : Bool := decide (1 ≤ p.aw ∧ p.aw ≤ 64)

/-- `REG_BASE` is word-aligned (spec/92_eei_decisions.md, table of open parameters). -/
def Platform.regBaseOk (p : Platform) : Bool := decide (p.regBase % 4 = 0)

/-- A platform the spec allows. `Admit` needs no check of its own: `Sys2Proof.Machine.admits` has the four properties
of R61 whatever the grants are. -/
def Platform.wellFormed (p : Platform) : Bool := p.awOk && p.regBaseOk

end Sys2Proof
end

