-- ==== Sys2Proof/Decode.lean ====
section
/-! DEFINITION. The decoder and the encoder of command words (spec/30_encoding.md rules R80, R86, R87, R92).

REG has no byte order (R56), so a command word is one 32-bit value and not a string of bytes. -/

namespace Sys2Proof

/-- Why a command word is illegal (R87). Both answers lead to E_ILLEGAL. -/
inductive Illegal where
  /-- A bit of the field ZERO, bits 31:8, is not 0. -/
  | zeroField
  /-- OPCODE, bits 7:0, is 0x00 or 0x07 to 0xFF. -/
  | opcode
  deriving DecidableEq, Repr

/-- The field OPCODE, bits 7:0 (R80). -/
def opcodeField (c : Word) : Byte := c.extractLsb' 0 8

/-- The field ZERO, bits 31:8 (R80). -/
def zeroField (c : Word) : BitVec 24 := c.extractLsb' 8 24

/-- `decode(c)` of R92, total on 32-bit words. -/
def decode (c : Word) : Except Illegal Instr :=
  if zeroField c ≠ 0 then .error .zeroField
  else if opcodeField c = 0x01 then .ok .init
  else if opcodeField c = 0x02 then .ok .update
  else if opcodeField c = 0x03 then .ok .updateMulti
  else if opcodeField c = 0x04 then .ok .updateLast
  else if opcodeField c = 0x05 then .ok .finish
  else if opcodeField c = 0x06 then .ok .hash
  else .error .opcode

/-- The column OPCODE of R86. -/
def opcodeOf : Instr → Byte
  | .init => 0x01
  | .update => 0x02
  | .updateMulti => 0x03
  | .updateLast => 0x04
  | .finish => 0x05
  | .hash => 0x06

/-- The command word of a command: ZERO above OPCODE (R80). -/
def encode (i : Instr) : Word := (0 : BitVec 24) ++ opcodeOf i

/-- The 32-bit value of an opcode-table word: the `nbits` low bits of `w`, every bit above them 0. -/
def tableWord (nbits w : Nat) : Word := BitVec.ofNat 32 (w % 2 ^ nbits)

/-- The command the decoder reads from a word numbered as spec/opcode_table.json numbers it. Every command is exactly
one 32-bit word (R82), so more than 32 bits are no command. -/
def decodeTableWord (nbits w : Nat) : Option Instr :=
  if 32 < nbits then none
  else
    match decode (tableWord nbits w) with
    | .ok i => some i
    | .error _ => none

end Sys2Proof
end

