-- ==== Sys2Proof/Machine/State.lean ====
section
/-! DEFINITION. The state of the engine, of the platform around it and of the host that drives it
(spec/10_state.md), the outcomes a step can end in, and the state after reset (R38, R240). -/

namespace Sys2Proof.Machine

/-- MEM (R50, R51): address and byte pairs, addresses strictly rising, no pair equal to what an unlisted address reads
as (`Memory.wf` in Ops.lean). -/
abbrev Memory := List Host.Cell

/-- The hash state: one aggregate of six fields, 161 words (R20). -/
structure HashState where
  /-- The engine's copy of the round constants (R21). -/
  k         : Vector Word 64
  /-- The block buffer (R22). -/
  data      : Vector Word 16
  /-- The message schedule (R23). -/
  ws        : Vector Word 64
  /-- The working hash (R24). -/
  whash     : Vector Word 8
  /-- The scratch copy, which is the working vector a..h during the rounds (R25, R28). -/
  whashCopy : Vector Word 8
  /-- The block counter (R26). -/
  counter   : Word
  deriving DecidableEq, Repr

/-- Which fields of the hash state hold a value, that is, have been written since reset (R12, R38). A field is written
whole by one command, so one flag per field is enough between commands. -/
structure Held where
  k         : Bool
  data      : Bool
  ws        : Bool
  whash     : Bool
  whashCopy : Bool
  counter   : Bool
  deriving DecidableEq, Repr

/-- The values of STATUS.ERR (R211). The reserved codes 0x08 to 0xFF are never produced, so they have no name. -/
inductive FaultCode where
  | eNone
  | eIllegal
  | eUninit
  | eSeq
  | eLen
  | eCounter
  | eAlias
  | eBus
  deriving DecidableEq, Repr

/-- STATUS without its reserved bits, which read as 0 (R30). -/
structure Status where
  initDone : Bool
  final    : Bool
  fault    : Bool
  err      : FaultCode
  deriving DecidableEq, Repr

/-- The six halves of the operand registers (R27, R29). -/
structure OperandRegs where
  srcLo : Word
  srcHi : Word
  dstLo : Word
  dstHi : Word
  lenLo : Word
  lenHi : Word
  deriving DecidableEq, Repr

/-- The phases of the sequencer (R32). -/
inductive Phase where
  | idle
  | check
  | pad
  | load
  | sched1
  | sched2
  | copy
  | round
  | feed
  | count
  | store
  deriving DecidableEq, Repr

/-- The sequencer: phase, loop index in the phase (6 bits), index of the block in the command (R32). -/
structure Seq where
  phase : Phase
  t     : Fin 64
  i     : Nat
  deriving DecidableEq, Repr

/-- `(IDLE, 0, 0)`: where the sequencer stands between commands (R32). -/
def Seq.idle : Seq := ⟨.idle, 0, 0⟩

/-- The registers of REG by name (R29). -/
inductive RegName where
  | cmd
  | status
  | srcLo
  | srcHi
  | dstLo
  | dstHi
  | lenLo
  | lenHi
  | k (i : Fin 64)
  | data (i : Fin 16)
  | ws (i : Fin 64)
  | whash (i : Fin 8)
  | whashCopy (i : Fin 8)
  | counter
  deriving DecidableEq, Repr

/-- One action of the world outside the engine. A host program is a finite list of these (R89, R255). -/
inductive HostAction where
  /-- `WR reg, value`: a 32-bit write of the register with that number (R89). -/
  | wr (reg : Nat) (value : Word)
  /-- `RD reg`: a 32-bit read of the register with that number (R89). -/
  | rd (reg : Nat)
  /-- A write of `bytes` bytes at a bus address of REG (R29, R34). -/
  | busWr (addr bytes : Nat) (value : Word)
  /-- A read of `bytes` bytes at a bus address of REG (R29, R34). -/
  | busRd (addr bytes : Nat)
  /-- The host stores a byte in MEM (R50). -/
  | store (addr : Nat) (value : Byte)
  /-- The host loads a byte of MEM (R50). -/
  | load (addr : Nat)
  /-- The platform drives the reset input between commands (R240). -/
  | reset
  /-- The host writes `word` to CMD and the reset arrives before the command is complete (R242). -/
  | resetDuring (word : Word)
  /-- The platform changes what it admits, between commands: Admit is fixed "for the duration of a command" (R61(4); log
  entry 7). -/
  | setAdmit (grants : List Grant)
  deriving DecidableEq, Repr

/-- The engine, the platform's memory and parameters, and the host's program. -/
structure State where
  /-- The hash state (R20). -/
  hash     : HashState
  /-- Which of its fields hold a value (R38). -/
  held     : Held
  /-- STATUS (R30). -/
  status   : Status
  /-- SRC, DST, LEN (R27). -/
  operands : OperandRegs
  /-- The sequencer (R32). -/
  seq      : Seq
  /-- MEM (R51). -/
  mem      : Memory
  /-- AW, REG_BASE and Admit (R7, R61). Only `HostAction.setAdmit` changes Admit; nothing changes the other two. -/
  platform : Platform
  /-- The host actions still to come, the next one first (log entry 1). -/
  host     : List HostAction
  /-- MODEL'S OWN: the values the host's reads have returned, newest first (log entry 9). -/
  reads    : List Word
  /-- MODEL'S OWN: how many free values have been drawn (log entry 3). -/
  draws    : Nat
  deriving DecidableEq, Repr

/-- A stop of the machine. No command raises one (R214, R221). -/
inductive Fault where
  /-- Raised by a host load or store of MEM at an address that is no AW-bit address: MEM has none (R51; log entry
  10). Safe: the spec gives such an access no effect. -/
  | noSuchAddress (addr : Nat)
  deriving DecidableEq, Repr

/-- An action the model gives no meaning. No command raises one. -/
inductive Refusal where
  /-- Raised by an arm of `exec` whose instruction has no meaning yet; no arm is left so. Safe. -/
  | notModelled (mnemonic : String)
  /-- Raised by a host access to a reserved register number; "a model refuses it" (R34, U6). Safe. -/
  | reservedRegister (reg : Nat)
  /-- Raised by a bus access to REG that is not 4 bytes wide; "a model refuses them" (R34, U6). Safe. -/
  | registerAccessWidth (bytes : Nat)
  /-- Raised by a bus access to REG that is not word-aligned; "a model refuses them" (R34, U6). Safe. -/
  | registerMisaligned (addr : Nat)
  /-- Raised by a bus access to REG below REG_BASE, where no register stands (R29; log entry 12). Safe. -/
  | notRegisterSpace (addr : Nat)
  deriving DecidableEq, Repr

/-- The hash state after reset. The spec gives it no value (R38, R241): zeros, DESIGN CHOICE (log entry 2), which no
action can observe while the `held` flags are clear. -/
def HashState.reset : HashState where
  k         := Vector.replicate 64 0
  data      := Vector.replicate 16 0
  ws        := Vector.replicate 64 0
  whash     := Vector.replicate 8 0
  whashCopy := Vector.replicate 8 0
  counter   := 0

/-- After reset no field holds a value (R38). -/
def Held.reset : Held := ⟨false, false, false, false, false, false⟩

/-- STATUS = 0 after reset (R38). -/
def Status.reset : Status := ⟨false, false, false, .eNone⟩

/-- SRC = DST = LEN = 0 after reset (R38). -/
def OperandRegs.reset : OperandRegs := ⟨0, 0, 0, 0, 0, 0⟩

/-- The platform the model starts with: AW = 64 and every range that does not wrap admitted, as
spec/95_test_vectors.md takes it, with REG placed above MEM (DESIGN CHOICE, log entry 6). -/
def launchPlatform : Platform where
  aw      := 64
  regBase := 2 ^ 64
  grants  := [.parts 0 (2 ^ 64) .read, .parts 0 (2 ^ 64) .write]

/-- The machine right after reset (R38, R240): the engine as the spec says, nothing listed in MEM, no host action
pending. -/
def State.reset : State where
  hash     := HashState.reset
  held     := Held.reset
  status   := Status.reset
  operands := OperandRegs.reset
  seq      := Seq.idle
  mem      := []
  platform := launchPlatform
  host     := []
  reads    := []
  draws    := 0

end Sys2Proof.Machine
end

