-- ==== Sys2Proof/Machine/Constants.lean ====
section
/-! DEFINITION. The constant tables of the design (spec/40_round_functions.md rules R110, R111). -/

namespace Sys2Proof.Machine

/-- The table of R110 by its rows: four words in 128 bits, column 0 the most significant. -/
def kRows : Vector (BitVec 128) 16 := #v[
  0x428a2f98_71374491_b5c0fbcf_e9b5dba5,
  0x3956c25b_59f111f1_923f82a4_ab1c5ed5,
  0xd807aa98_12835b01_243185be_550c7dc3,
  0x72be5d74_80deb1fe_9bdc06a7_c19bf174,
  0xe49b69c1_efbe4786_0fc19dc6_240ca1cc,
  0x2de92c6f_4a7484aa_5cb0a9dc_76f988da,
  0x983e5152_a831c66d_b00327c8_bf597fc7,
  0xc6e00bf3_d5a79147_06ca6351_14292967,
  0x27b70a85_2e1b2138_4d2c6dfc_53380d13,
  0x650a7354_766a0abb_81c2c92e_92722c85,
  0xa2bfe8a1_a81a664b_c24b8b70_c76c51a3,
  0xd192e819_d6990624_f40e3585_106aa070,
  0x19a4c116_1e376c08_2748774c_34b0bcb5,
  0x391c0cb3_4ed8aa4a_5b9cca4f_682e6ff3,
  0x748f82ee_78a5636f_84c87814_8cc70208,
  0x90befffa_a4506ceb_bef9a3f7_c67178f2]

/-- The round constants: "`K[t]` is row `floor(t/4)`, column `t mod 4`" (R110). -/
def K : Vector Word 64 :=
  Vector.ofFn fun t => kRows[t.val / 4].extractLsb' (96 - 32 * (t.val % 4)) 32

/-- The initial hash `H0[0..7]` (R111). -/
def H0 : Vector Word 8 := #v[
  0x6a09e667, 0xbb67ae85, 0x3c6ef372, 0xa54ff53a,
  0x510e527f, 0x9b05688c, 0x1f83d9ab, 0x5be0cd19]

end Sys2Proof.Machine
end

