-- ==== Sys2Proof/Machine/Ops.lean ====
section
/-! DEFINITION. The shared operations: MEM, `Admit`, the refusal of a command, reset (spec/20_memory.md,
spec/60_exceptions.md rule R212, spec/70_reset_and_hazards.md rules R240 and R242). -/

namespace Sys2Proof.Machine

/-! ### MEM -/

/-- What an address that MEM does not list reads as (DESIGN CHOICE, log entry 5: the launch contents of MEM are
OPEN). -/
def unlistedByte : Byte := 0

/-- The byte at an address. -/
def Memory.read : Memory → Nat → Byte
  | [], _ => unlistedByte
  | (a, b) :: m, x => if x = a then b else Memory.read m x

/-- The memory with `b` at `x`: one place in the rising order, and no entry at all for the byte an unlisted address
reads as. -/
def Memory.write : Memory → Nat → Byte → Memory
  | [], x, b => if b = unlistedByte then [] else [(x, b)]
  | (a, c) :: m, x, b =>
    if x < a then (if b = unlistedByte then (a, c) :: m else (x, b) :: (a, c) :: m)
    else if x = a then (if b = unlistedByte then m else (x, b) :: m)
    else (a, c) :: Memory.write m x b

/-- Every address of the list is at least `lo`, addresses rise strictly, and no byte is the unlisted one. -/
def Memory.wfFrom : Nat → Memory → Bool
  | _, [] => true
  | lo, (a, b) :: m => decide (lo ≤ a) && decide (b ≠ unlistedByte) && Memory.wfFrom (a + 1) m

/-- The canonical form of MEM, so that equal memories are equal data. -/
def Memory.wf (m : Memory) : Bool := Memory.wfFrom 0 m

/-- `MemRead(addr, n)`: the `n` bytes from `addr` on (R10). Addresses do not wrap (R61). -/
def memRead (m : Memory) (addr n : Nat) : Vector Byte n :=
  Vector.ofFn fun j => Memory.read m (addr + j)

/-- `MemWrite(addr, n, bytes)`, in ascending address order (R10, R58). -/
@[irreducible] def memWrite {n : Nat} (m : Memory) (addr : Nat) (bytes : Vector Byte n) : Memory :=
  Nat.fold n (fun j _ m => Memory.write m (addr + j) bytes[j]) m

/-! ### The address map -/

/-- Register numbers 0x000 to 0x007: CMD, STATUS, the operand halves (R29). -/
def controlRegs : Nat := 0x008

/-- The first register number of the STATE window, 0x100 (R29). -/
def windowFirst : Nat := 0x100

/-- The first number after the STATE window, 0x1A1 (R29). -/
def windowEnd : Nat := 0x1A1

/-- The range of `n > 0` bytes at `addr` shares a byte with the registers numbered `first` to `last - 1`, which the
platform places at `REG_BASE + 4*i` (R29). -/
def meetsRun (p : Platform) (first last addr n : Nat) : Bool :=
  decide (addr < p.regBase + 4 * last ∧ p.regBase + 4 * first < addr + n)

/-- The range of `n > 0` bytes at `addr` meets one of the engine's own registers (R61(3)). The reserved numbers 0x008 to
0x0FF name no register (R29), so a range that meets only their addresses meets no register (DEDUCED, log entry 7). -/
def meetsRegs (p : Platform) (addr n : Nat) : Bool :=
  meetsRun p 0 controlRegs addr n || meetsRun p windowFirst windowEnd addr n

/-- The longest message HASH accepts (R196). -/
def hashLimit : Nat := 2 ^ 38 - 73

/-- The `n` bytes at `addr` are what a command of the manual composition reads in place of a HASH of the `size` bytes at
`base`: a run of its full blocks, or the rest after the last of them (R198). -/
def isHashPart (base size addr n : Nat) : Bool :=
  decide (base ≤ addr ∧ (addr - base) % 64 = 0 ∧
    (n % 64 = 0 ∧ addr + n ≤ base + size ∨ addr = base + 64 * (size / 64) ∧ n = size % 64))

/-- `[src, src+len)` and `[dst, dst+32)` share a byte (R217). The addresses compared are SRC and DST whole, as R92 decodes
them and R214 compares them. With `AW < 64` and a bit at or above `AW` set, R27 and R83 could also be read as comparing the
low `AW` bits; that E_ALIAS looks at the whole 64 bits, before E_BUS refuses such an address, is a DESIGN CHOICE (log
entry 19). -/
def rangesOverlap (src len dst : Nat) : Bool := decide (0 < len ∧ src < dst + 32 ∧ dst < src + len)

/-- What a grant admits: what it says and no more. -/
def covers (g : Grant) (addr n : Nat) (kind : AccessKind) : Bool :=
  match g with
  | .parts base size k => decide (k = kind ∧ base ≤ addr ∧ addr + n ≤ base + size)
  | .range base size k => decide (k = kind ∧ base = addr ∧ size = n)

/-- The platform grants the range of `n > 0` bytes, which ends below `2^AW` and meets no register (R61). -/
def granted (p : Platform) (addr n : Nat) (kind : AccessKind) : Bool :=
  decide (addr + n ≤ 2 ^ p.aw) && !meetsRegs p addr n && p.grants.any fun g => covers g addr n kind

/-- Where a grant begins. -/
def grantBase : Grant → Nat
  | .parts base _ _ => base
  | .range base _ _ => base

/-- Where the lowest DST that a HASH of the `size` bytes at `src` can use lies, if it can use any: at the beginning of a
grant, or just above one of the three things DST has to stay clear of. -/
def digestPlaces (p : Platform) (src size : Nat) : List Nat :=
  [src + size, p.regBase + 4 * controlRegs, p.regBase + 4 * windowEnd] ++ p.grants.map grantBase

/-- HASH can be accepted for the `size > 0` bytes at `src`: they are no longer than it takes, the platform grants the read
of them, and somewhere clear of them it grants the store of a digest (R196, R214). -/
def hashable (p : Platform) (src size : Nat) : Bool :=
  decide (size ≤ hashLimit) && granted p src size .read &&
    (digestPlaces p src size).any fun dst => granted p dst 32 .write && !rangesOverlap src size dst

/-- The grant is for one read of a message HASH can be accepted for, and the range is a part of it that the manual
composition reads. That such a range is admitted is DEDUCED from R198: the manual composition "is accepted too" (log
entry 7). -/
def coversHashPart (p : Platform) (g : Grant) (addr n : Nat) : Bool :=
  match g with
  | .range base size .read => hashable p base size && isHashPart base size addr n
  | .range _ _ .write => false
  | .parts _ _ _ => false

/-- `Admit(addr, n, kind)` (R61): an empty range always, a range that wraps never, a range that meets a register never,
and otherwise what the platform grants, with the parts R198 asks for (log entry 7). With `AW < 64` an address with a bit
at or above `AW` set is past the top, so it is not admitted either (R83, R218). -/
def admits (p : Platform) (addr n : Nat) (kind : AccessKind) : Bool :=
  n == 0 || granted p addr n kind || (decide (kind = .read) && p.grants.any fun g => coversHashPart p g addr n)

/-- The address is one of MEM's (R51). -/
def isMemAddress (p : Platform) (addr : Nat) : Bool := decide (addr < 2 ^ p.aw)

/-! ### The sequencer between commands -/

/-- `seq <- (IDLE, 0, 0)` (R32, R212). -/
def toIdle (s : State) : State := { s with seq := Seq.idle }

/-! ### Refusing a command -/

/-- `raise Fault(code)` (R212): the first refusal is recorded in FAULT and ERR; with FAULT = 1 already, nothing
changes; the sequencer returns to IDLE and the CMD write completes. This is the whole of the engine's exception
mechanism: nothing is saved, there is no handler and no return (R219, R222). -/
def raiseFault (code : FaultCode) (s : State) : State :=
  toIdle (if s.status.fault then s else { s with status := { s.status with err := code, fault := true } })

/-! ### The platform between commands -/

/-- The platform admits what these grants say from now on; AW and REG_BASE stay (R61(4); log entry 7). -/
def setAdmit (grants : List Grant) (s : State) : State := { s with platform := { s.platform with grants := grants } }

/-! ### Reset -/

/-- Reset puts every piece of engine state into its reset state (R240). MEM, the platform, the host's program and
the model's own records are not the engine's and stay (log entry 13). -/
def engineReset (s : State) : State :=
  { s with
    hash := HashState.reset
    held := Held.reset
    status := Status.reset
    operands := OperandRegs.reset
    seq := Seq.idle }

/-- MEM when a reset has caught a command that was to leave `after`: each of the 32 bytes at `dst` holds its old value
or its new one, unspecified which (R242; log entry 4). -/
@[irreducible] def tornDigest (before after : Memory) (dst draws : Nat) : Memory :=
  Nat.fold 32 (fun j _ m =>
    if Config.freeBit (draws + j) then Memory.write m (dst + j) (Memory.read after (dst + j)) else m) before

end Sys2Proof.Machine
end

