-- ==== Sys2Proof/Machine/Operands.lean ====
section
/-! DEFINITION. Operand assembly (spec/30_encoding.md rules R83, R84) and byte order (spec/20_memory.md rules R53 to
R56). -/

namespace Sys2Proof.Machine

/-- `SRC = SRC_HI || SRC_LO`, an absolute byte address (R27, R83). -/
def State.src (s : State) : Nat := (s.operands.srcHi ++ s.operands.srcLo : BitVec 64).toNat

/-- `DST = DST_HI || DST_LO`, an absolute byte address (R27, R83). -/
def State.dst (s : State) : Nat := (s.operands.dstHi ++ s.operands.dstLo : BitVec 64).toNat

/-- `LEN = LEN_HI || LEN_LO`: `n` blocks for UPDATE_MULTI, `len` bytes for UPDATE_LAST and HASH (R27, R84). -/
def State.len (s : State) : Nat := (s.operands.lenHi ++ s.operands.lenLo : BitVec 64).toNat

/-- `BE32(b0, b1, b2, b3)` (R10). -/
def be32 (b0 b1 b2 b3 : Byte) : Word := b0 ++ b1 ++ b2 ++ b3

/-- Byte `j` of a word, the most significant being byte 0: `w[31-8*j : 24-8*j]` (R55). -/
def wordByte (w : Word) (j : Nat) : Byte := w.extractLsb' (24 - 8 * j) 8

/-- `bytesToWordsBE(bytes, n)` (R54). -/
def bytesToWordsBE {n : Nat} (bytes : Vector Byte (4 * n)) : Vector Word n :=
  Vector.ofFn fun i => be32 bytes[4 * i.val] bytes[4 * i.val + 1] bytes[4 * i.val + 2] bytes[4 * i.val + 3]

/-- `wordsToBytesBE(words, n)` (R55). -/
def wordsToBytesBE {n : Nat} (words : Vector Word n) : Vector Byte (4 * n) :=
  Vector.ofFn fun m => wordByte words[m.val / 4] (m.val % 4)

/-- `BE64bytes(v)`: the 8 bytes of `v`, most significant first, `v[63-8*j : 56-8*j]` (R10, R56). -/
def be64Bytes (v : BitVec 64) : Vector Byte 8 :=
  Vector.ofFn fun j => v.extractLsb' (56 - 8 * j.val) 8

end Sys2Proof.Machine
end

