-- ==== Sys2Proof/Machine/Compression.lean ====
section
/-! DEFINITION. The micro-operations on the hash state: message scheduler (spec/41_message_scheduler.md), compression
engine (spec/42_compression.md), and the absorption of one block (spec/43_init_and_update.md rules R155 to R157,
R160).

A loop `for t in a..b` of the spec (R11) is `Nat.fold`, which runs its body in increasing order of the index. -/

namespace Sys2Proof.Machine

/-- `LOADBLK(B)` (R156). -/
def HashState.loadBlk (b : Vector Byte 64) (h : HashState) : HashState :=
  { h with data := bytesToWordsBE b }

/-- `SCHED1(t)`, `t` in 0..15 (R131). -/
def HashState.sched1 (t : Fin 16) (h : HashState) : HashState :=
  { h with ws := h.ws.set t h.data[t] }

/-- The four-term sum of the schedule recurrence, for `t` in 16..63 (R132). -/
def scheduleTerm (ws : Vector Word 64) (t : Fin 64) : Word :=
  ssig1 ws[t.val - 2] + ws[t.val - 7] + ssig0 ws[t.val - 15] + ws[t.val - 16]

/-- `SCHED2(t)`, `t` in 16..63 (R132). -/
def HashState.sched2 (t : Fin 64) (h : HashState) : HashState :=
  { h with ws := h.ws.set t (scheduleTerm h.ws t) }

/-- Phase 1 of `SCHED` (R130). -/
@[irreducible] def HashState.schedPhase1 (h : HashState) : HashState :=
  Nat.fold 16 (fun t ht h => HashState.sched1 ⟨t, ht⟩ h) h

/-- Phase 2 of `SCHED` (R130): the indices 16 to 63. -/
@[irreducible] def HashState.schedPhase2 (h : HashState) : HashState :=
  Nat.fold 48 (fun u hu h => HashState.sched2 ⟨16 + u, by omega⟩ h) h

/-- `SCHED()` (R130). -/
def HashState.sched (h : HashState) : HashState := h.schedPhase1.schedPhase2

/-- `COPY()` (R141). -/
def HashState.copy (h : HashState) : HashState := { h with whashCopy := h.whash }

/-- The new working vector of a round, from the old one, the round constant and the schedule word (R142). Every
component is computed from the old vector. -/
def roundVector (kt wt : Word) (v : Vector Word 8) : Vector Word 8 :=
  let t1 := v[7] + bsig1 v[4] + ch v[4] v[5] v[6] + kt + wt
  let t2 := bsig0 v[0] + maj v[0] v[1] v[2]
  #v[t1 + t2, v[0], v[1], v[2], v[3] + t1, v[4], v[5], v[6]]

/-- `ROUND(t)`, `t` in 0..63 (R142). -/
def HashState.round (t : Fin 64) (h : HashState) : HashState :=
  { h with whashCopy := roundVector h.k[t] h.ws[t] h.whashCopy }

/-- The 64 rounds (R140). -/
@[irreducible] def HashState.rounds (h : HashState) : HashState :=
  Nat.fold 64 (fun t ht h => HashState.round ⟨t, ht⟩ h) h

/-- `FEEDFWD()` (R143). -/
def HashState.feedFwd (h : HashState) : HashState :=
  { h with whash := Vector.zipWith (· + ·) h.whash h.whashCopy }

/-- `COMPRESS()` (R140). -/
def HashState.compress (h : HashState) : HashState := h.copy.rounds.feedFwd

/-- `COUNT()` (R160). Every caller has checked that the sum fits in 32 bits. -/
def HashState.count (h : HashState) : HashState := { h with counter := h.counter + 1 }

/-- `Absorb(B)` on the hash state (R157). -/
@[irreducible] def HashState.absorb (b : Vector Byte 64) (h : HashState) : HashState :=
  (h.loadBlk b).sched.compress.count

/-- The loads of INIT: `k`, `whash`, `counter`; the other three fields keep their content (R155). -/
def HashState.load (h : HashState) : HashState :=
  { h with k := K, whash := H0, counter := 0 }

/-- The fields one absorption has written (R157). -/
def Held.afterAbsorb (f : Held) : Held :=
  { f with data := true, ws := true, whash := true, whashCopy := true, counter := true }

/-- The fields INIT has written (R155). -/
def Held.afterInit (f : Held) : Held :=
  { f with k := true, whash := true, counter := true }

/-- `Absorb(B)` (R157). -/
def absorb (b : Vector Byte 64) (s : State) : State :=
  { s with hash := s.hash.absorb b, held := s.held.afterAbsorb }

/-- The full blocks `src + 64*i`, `i` in 0..n-1, absorbed left to right (R159). -/
@[irreducible] def absorbBlocks (src n : Nat) (s : State) : State :=
  Nat.fold n (fun i _ s => absorb (memRead s.mem (src + 64 * i) 64) s) s

end Sys2Proof.Machine
end

