-- ==== Sys2Proof/Machine/Flags.lean ====
section
/-! DEFINITION. STATUS: its word, its codes, the lifecycle it encodes (spec/10_state.md rules R30, R36;
spec/60_exceptions.md rule R211). No arithmetic sets a flag (R112). -/

namespace Sys2Proof.Machine

/-- The number of a fault code, 8 bits (R211). -/
def FaultCode.number : FaultCode → BitVec 8
  | .eNone => 0x00
  | .eIllegal => 0x01
  | .eUninit => 0x02
  | .eSeq => 0x03
  | .eLen => 0x04
  | .eCounter => 0x05
  | .eAlias => 0x06
  | .eBus => 0x07

/-- The 32 bits a read of STATUS returns: ERR in 15:8, FAULT, FINAL, INIT_DONE in 2, 1, 0, the rest 0 (R30). -/
def statusWord (st : Status) : Word :=
  (0 : BitVec 16) ++ st.err.number ++ (0 : BitVec 5) ++ BitVec.ofBool st.fault ++ BitVec.ofBool st.final ++
    BitVec.ofBool st.initDone

/-- STATUS after an accepted INIT (R155). -/
def statusAfterInit : Status := ⟨true, false, false, .eNone⟩

/-- `STATUS.FINAL <- 1` (R178). -/
def setFinal (s : State) : State := { s with status := { s.status with final := true } }

/-- The four situations of the lifecycle (R36). -/
inductive Situation where
  | uninitialised
  | absorbing
  | finalized
  | faulted
  deriving DecidableEq, Repr

/-- The situation the flags encode (R36). -/
def situation (st : Status) : Situation :=
  if st.fault then .faulted
  else if !st.initDone then .uninitialised
  else if st.final then .finalized
  else .absorbing

end Sys2Proof.Machine
end

