-- ==== Sys2Proof/Machine/Padding.lean ====
section
/-! DEFINITION. Padding and serialization (spec/44_padding_finalization.md rules R175 to R178, R180). -/

namespace Sys2Proof.Machine

/-- The number of padding blocks: one for `len` in 0..55, two for 56..63 (R176). -/
def padBlocks (len : Nat) : Nat := if len < 56 then 1 else 2

/-- `size`, the padded length in bytes (R176). -/
def paddedSize (len : Nat) : Nat := 64 * padBlocks len

/-- `bits`, the message length in bits, 64 bits wide, from the counter before any padding block is absorbed (R177,
R251). -/
def lengthBits (c : Word) (len : Nat) : BitVec 64 :=
  (c.setWidth 64 * 64 + BitVec.ofNat 64 len) * 8

/-- `PAD(D, len, c)`: the scratch `pad[0..127]` after steps 1 to 4 (R175). With `len <= 63` every index is inside the
scratch. -/
@[irreducible] def padScratch {len : Nat} (d : Vector Byte len) (c : Word) : Vector Byte 128 :=
  let zeroed : Vector Byte 128 := Vector.replicate 128 0
  let copied := Nat.fold len (fun j hj p => p.setIfInBounds j d[j]) zeroed
  let marked := copied.setIfInBounds len 0x80
  Nat.fold 8 (fun j hj p => p.setIfInBounds (paddedSize len - 8 + j) (be64Bytes (lengthBits c len))[j]) marked

/-- `P[64*i .. 64*i+63]`, block `i` of the padded region (R178). -/
def padBlock (p : Vector Byte 128) (i : Fin 2) : Vector Byte 64 :=
  Vector.ofFn fun j => p[64 * i.val + j.val]

/-- The finalization that UPDATE_LAST and HASH share: read the last `len` bytes, pad them, absorb the one or two
blocks, set FINAL (R178, R195). The counter is captured before the first block is absorbed (R251). -/
def absorbLast (src len : Nat) (s : State) : State :=
  let p := padScratch (memRead s.mem src len) s.hash.counter
  let one := absorb (padBlock p 0) s
  setFinal (if len < 56 then one else absorb (padBlock p 1) one)

/-- `MemWrite(dst, 32, wordsToBytesBE(whash, 8))` (R180). -/
def storeDigest (dst : Nat) (s : State) : State :=
  { s with mem := memWrite s.mem dst (wordsToBytesBE s.hash.whash) }

end Sys2Proof.Machine
end

