-- ==== Sys2Proof/Machine/Checks.lean ====
section
/-! DEFINITION. The acceptance checks (spec/60_exceptions.md rules R214 to R218) and the two ways a command ends: it
runs, or it is refused.

Comparisons are on unbounded non-negative integers (R8). A difference such as `2^32 - n` is natural-number subtraction,
which gives 0 where the integer is negative: no number is below either. -/

namespace Sys2Proof.Machine

/-- What the checks decide. -/
inductive Verdict where
  /-- Every check passes. -/
  | accepted
  /-- Step 2 fails: FAULT is already 1, refused without a code. -/
  | refusedFaulted
  /-- Another step fails, with its code. -/
  | refused (code : FaultCode)
  deriving DecidableEq, Repr

/-- A check and the verdict when it fails. -/
abbrev Check := Bool × Verdict

/-- The first failing check decides, and later ones are not evaluated (R214). -/
def firstFailing : List Check → Verdict
  | [] => .accepted
  | (passes, v) :: rest => if passes then firstFailing rest else v

/-- Step 2: FAULT = 0, else refuse. -/
def notFaulted (s : State) : Check := (!s.status.fault, .refusedFaulted)

/-- Step 3: INIT_DONE = 1, else E_UNINIT. -/
def initialised (s : State) : Check := (s.status.initDone, .refused .eUninit)

/-- Step 4: FINAL = 0, else E_SEQ. -/
def notFinal (s : State) : Check := (!s.status.final, .refused .eSeq)

/-- Step 5: a length below its bound, else E_LEN. -/
def lengthBelow (len bound : Nat) : Check := (decide (len < bound), .refused .eLen)

/-- Step 6: `counter < 2^32 - n`, else E_COUNTER (R216). -/
def counterRoom (s : State) (n : Nat) : Check :=
  (decide (s.hash.counter.toNat < 2 ^ 32 - n), .refused .eCounter)

/-- Step 6 of HASH: `len <= 2^38 - 73`, else E_COUNTER (R196). -/
def withinCounterReach (len : Nat) : Check := (decide (len ≤ hashLimit), .refused .eCounter)

/-- Step 7: the ranges share no byte, else E_ALIAS. -/
def disjointRanges (src len dst : Nat) : Check := (!rangesOverlap src len dst, .refused .eAlias)

/-- Step 8: the range is admitted, else E_BUS. -/
def admitted (s : State) (addr n : Nat) (kind : AccessKind) : Check :=
  (admits s.platform addr n kind, .refused .eBus)

/-- The column of R214's table for each command, steps 2 to 8 in order. Step 1, a legal word, is the decoder's. -/
def acceptanceChecks (s : State) : Instr → List Check
  | .init => []
  | .update =>
    [notFaulted s, initialised s, notFinal s, counterRoom s 1, admitted s s.src 64 .read]
  | .updateMulti =>
    [notFaulted s, initialised s, notFinal s, counterRoom s s.len, admitted s s.src (64 * s.len) .read]
  | .updateLast =>
    [notFaulted s, initialised s, notFinal s, lengthBelow s.len 64,
      lengthBelow (64 * s.hash.counter.toNat + s.len) (2 ^ 61), counterRoom s (padBlocks s.len),
      admitted s s.src s.len .read]
  | .finish => [notFaulted s, initialised s, admitted s s.dst 32 .write]
  | .hash =>
    [lengthBelow s.len (2 ^ 61), withinCounterReach s.len, disjointRanges s.src s.len s.dst,
      admitted s s.src s.len .read, admitted s s.dst 32 .write]

/-- The verdict on a command in a state (R214). -/
def verdict (i : Instr) (s : State) : Verdict := firstFailing (acceptanceChecks s i)

/-- A command whose verdict is given: accepted, it runs to completion and the sequencer returns to IDLE; refused, its
whole effect is that of `raiseFault` (R212, R214). With FAULT = 1 a refusal changes nothing, whatever the code. -/
def conclude (v : Verdict) (run : State → State) (s : State) : Host.Outcome State Fault Refusal :=
  match v with
  | .accepted => .next (toIdle (run s))
  | .refusedFaulted => .next (toIdle s)
  | .refused code => .next (raiseFault code s)

end Sys2Proof.Machine
end

