-- ==== Sys2Proof/Machine/Finalization.lean ====
section
/-! DEFINITION. UPDATE_LAST and FINISH (spec/44_padding_finalization.md rules R178, R180). -/

namespace Sys2Proof.Machine

/-- The effect of an accepted UPDATE_LAST, `len` = LEN (R178). -/
def updateLastState (s : State) : State := absorbLast s.src s.len s

/-- The effect of an accepted FINISH (R180). FINAL is not looked at. -/
def finishState (s : State) : State := storeDigest s.dst s

/-- UPDATE_LAST (R178). -/
def execUpdateLast (s : State) : Host.Outcome State Fault Refusal :=
  conclude (verdict .updateLast s) updateLastState s

/-- FINISH (R180). -/
def execFinish (s : State) : Host.Outcome State Fault Refusal :=
  conclude (verdict .finish s) finishState s

end Sys2Proof.Machine
end

