-- ==== Sys2Proof/Machine/Streaming.lean ====
section
/-! DEFINITION. INIT, UPDATE, UPDATE_MULTI (spec/43_init_and_update.md rules R155, R158, R159). -/

namespace Sys2Proof.Machine

/-- The effect of INIT (R155): `k`, `whash`, `counter`, STATUS. HASH begins with it (R195). -/
def initState (s : State) : State :=
  { s with hash := s.hash.load, held := s.held.afterInit, status := statusAfterInit }

/-- The effect of an accepted UPDATE (R158). -/
def updateState (s : State) : State := absorb (memRead s.mem s.src 64) s

/-- The effect of an accepted UPDATE_MULTI, `n` = LEN (R159). -/
def updateMultiState (s : State) : State := absorbBlocks s.src s.len s

/-- INIT, accepted in every situation (R155). -/
def execInit (s : State) : Host.Outcome State Fault Refusal :=
  conclude (verdict .init s) initState s

/-- UPDATE (R158). -/
def execUpdate (s : State) : Host.Outcome State Fault Refusal :=
  conclude (verdict .update s) updateState s

/-- UPDATE_MULTI (R159). -/
def execUpdateMulti (s : State) : Host.Outcome State Fault Refusal :=
  conclude (verdict .updateMulti s) updateMultiState s

end Sys2Proof.Machine
end

