-- ==== Sys2Proof/Machine/OneShot.lean ====
section
/-! DEFINITION. HASH (spec/45_oneshot.md rules R195 to R200). -/

namespace Sys2Proof.Machine

/-- The effect of an accepted HASH (R195): INIT, the `n` full blocks, the padded remainder, the digest stored. After
the full blocks the counter is `n`, which is what the length field is computed from. -/
def hashState (s : State) : State :=
  let n := s.len / 64
  let r := s.len % 64
  storeDigest s.dst (absorbLast (s.src + 64 * n) r (absorbBlocks s.src n (initState s)))

/-- HASH, whatever STATUS holds (R195, R197). -/
def execHash (s : State) : Host.Outcome State Fault Refusal :=
  conclude (verdict .hash s) hashState s

end Sys2Proof.Machine
end

