-- ==== Sys2Proof/Machine/Dispatch.lean ====
section
/-! DEFINITION. One arm per command. -/

namespace Sys2Proof.Machine

def exec (i : Instr) (s : State) : Host.Outcome State Fault Refusal :=
  match i with
  | .init => Sys2Proof.Machine.execInit s
  | .update => Sys2Proof.Machine.execUpdate s
  | .updateMulti => Sys2Proof.Machine.execUpdateMulti s
  | .updateLast => Sys2Proof.Machine.execUpdateLast s
  | .finish => Sys2Proof.Machine.execFinish s
  | .hash => Sys2Proof.Machine.execHash s

end Sys2Proof.Machine
end

