-- ==== Sys2Proof/Machine/HostAccess.lean ====
section
/-! DEFINITION. What one action of the outside world does: the register space REG (spec/10_state.md rules R29 to R34),
the host's accesses to MEM (spec/20_memory.md rule R50), reset (spec/70_reset_and_hazards.md rules R240, R242). -/

namespace Sys2Proof.Machine

/-- The register with a number; none for the reserved numbers (R29). -/
def registerAt (n : Nat) : Option RegName :=
  if n = 0x000 then some .cmd
  else if n = 0x001 then some .status
  else if n = 0x002 then some .srcLo
  else if n = 0x003 then some .srcHi
  else if n = 0x004 then some .dstLo
  else if n = 0x005 then some .dstHi
  else if n = 0x006 then some .lenLo
  else if n = 0x007 then some .lenHi
  else if n < 0x100 then none
  else if h : n - 0x100 < 64 then some (.k ⟨n - 0x100, h⟩)
  else if h : n - 0x140 < 16 then some (.data ⟨n - 0x140, h⟩)
  else if h : n - 0x150 < 64 then some (.ws ⟨n - 0x150, h⟩)
  else if h : n - 0x190 < 8 then some (.whash ⟨n - 0x190, h⟩)
  else if h : n - 0x198 < 8 then some (.whashCopy ⟨n - 0x198, h⟩)
  else if n = 0x1A0 then some .counter
  else none

/-- The number of a register (R29). -/
def registerNumber : RegName → Nat
  | .cmd => 0x000
  | .status => 0x001
  | .srcLo => 0x002
  | .srcHi => 0x003
  | .dstLo => 0x004
  | .dstHi => 0x005
  | .lenLo => 0x006
  | .lenHi => 0x007
  | .k i => 0x100 + i
  | .data i => 0x140 + i
  | .ws i => 0x150 + i
  | .whash i => 0x190 + i
  | .whashCopy i => 0x198 + i
  | .counter => 0x1A0

/-- A write of the word `c` to CMD: the command it encodes runs to completion, an illegal word is refused with
E_ILLEGAL (R31, R87, R213). -/
def commandWrite (c : Word) (s : State) : Host.Outcome State Fault Refusal :=
  match decode c with
  | .ok i => exec i s
  | .error _ => .next (raiseFault .eIllegal s)

/-- The operand registers after a write of `v` to one of them; the other registers hold no operand (R34). -/
def OperandRegs.write (r : RegName) (v : Word) (o : OperandRegs) : OperandRegs :=
  match r with
  | .srcLo => { o with srcLo := v }
  | .srcHi => { o with srcHi := v }
  | .dstLo => { o with dstLo := v }
  | .dstHi => { o with dstHi := v }
  | .lenLo => { o with lenLo := v }
  | .lenHi => { o with lenHi := v }
  | _ => o

/-- A 32-bit write of register number `n`: CMD starts a command, an operand half is stored whatever STATUS is, a
read-only register is not changed, a reserved number is refused (R34). -/
def registerWrite (n : Nat) (v : Word) (s : State) : Host.Outcome State Fault Refusal :=
  match registerAt n with
  | none => .refused (.reservedRegister n)
  | some .cmd => commandWrite v s
  | some r => .next { s with operands := s.operands.write r v }

/-- The word of a register and whether the register holds a value (R29, R33, R38). CMD reads as 0 (R31). -/
def registerWord (r : RegName) (s : State) : Bool × Word :=
  match r with
  | .cmd => (true, 0)
  | .status => (true, statusWord s.status)
  | .srcLo => (true, s.operands.srcLo)
  | .srcHi => (true, s.operands.srcHi)
  | .dstLo => (true, s.operands.dstLo)
  | .dstHi => (true, s.operands.dstHi)
  | .lenLo => (true, s.operands.lenLo)
  | .lenHi => (true, s.operands.lenHi)
  | .k i => (s.held.k, s.hash.k[i])
  | .data i => (s.held.data, s.hash.data[i])
  | .ws i => (s.held.ws, s.hash.ws[i])
  | .whash i => (s.held.whash, s.hash.whash[i])
  | .whashCopy i => (s.held.whashCopy, s.hash.whashCopy[i])
  | .counter => (s.held.counter, s.hash.counter)

/-- The host receives a value. -/
def deliver (v : Word) (s : State) : State := { s with reads := v :: s.reads }

/-- The host receives a free value, a new one at each read (R33; log entry 3). -/
def deliverFree (s : State) : State :=
  { s with reads := Config.freeWord s.draws :: s.reads, draws := s.draws + 1 }

/-- A 32-bit read of register number `n` (R31, R33, R34). -/
def registerRead (n : Nat) (s : State) : Host.Outcome State Fault Refusal :=
  match registerAt n with
  | none => .refused (.reservedRegister n)
  | some r =>
    match registerWord r s with
    | (true, w) => .next (deliver w s)
    | (false, _) => .next (deliverFree s)

/-- The register number a bus access of `bytes` bytes at `addr` reaches: `REG_BASE + 4*i`, whole registers only (R29,
R34). -/
def busRegister (p : Platform) (addr bytes : Nat) : Except Refusal Nat :=
  if bytes ≠ 4 then .error (.registerAccessWidth bytes)
  else if addr < p.regBase then .error (.notRegisterSpace addr)
  else if (addr - p.regBase) % 4 ≠ 0 then .error (.registerMisaligned addr)
  else .ok ((addr - p.regBase) / 4)

/-- The host stores a byte in MEM (R50). -/
def hostStore (addr : Nat) (b : Byte) (s : State) : Host.Outcome State Fault Refusal :=
  if isMemAddress s.platform addr then .next { s with mem := Memory.write s.mem addr b }
  else .fault (.noSuchAddress addr)

/-- The host loads a byte of MEM (R50). -/
def hostLoad (addr : Nat) (s : State) : Host.Outcome State Fault Refusal :=
  if isMemAddress s.platform addr then .next (deliver ((Memory.read s.mem addr).setWidth 32) s)
  else .fault (.noSuchAddress addr)

/-- A write of `c` to CMD that a reset catches (R242): the engine is in its reset state afterwards, and the digest
bytes the command was to store are each old or new. A command that stores nothing leaves MEM as it was. -/
def resetDuringCommand (c : Word) (s : State) : Host.Outcome State Fault Refusal :=
  match commandWrite c s with
  | .next t =>
    .next (engineReset { s with mem := tornDigest s.mem t.mem s.dst s.draws, draws := s.draws + 32 })
  | .fault f => .fault f
  | .refused r => .refused r

/-- One action of the outside world. -/
def perform (a : HostAction) (s : State) : Host.Outcome State Fault Refusal :=
  match a with
  | .wr reg v => registerWrite reg v s
  | .rd reg => registerRead reg s
  | .busWr addr bytes v =>
    match busRegister s.platform addr bytes with
    | .ok reg => registerWrite reg v s
    | .error r => .refused r
  | .busRd addr bytes =>
    match busRegister s.platform addr bytes with
    | .ok reg => registerRead reg s
    | .error r => .refused r
  | .store addr b => hostStore addr b s
  | .load addr => hostLoad addr s
  | .reset => .next (engineReset s)
  | .resetDuring c => resetDuringCommand c s
  | .setAdmit grants => .next (setAdmit grants s)

/-- The host's next action, if it has one: the engine does nothing of its own between commands (R229, R240). -/
def nextAction (s : State) : Host.Outcome State Fault Refusal :=
  match s.host with
  | [] => .next s
  | a :: rest => perform a { s with host := rest }

/-- The host's program with a write of the word `c` to CMD as its next action. -/
def placeCommand (c : Word) (s : State) : State := { s with host := .wr 0x000 c :: s.host }

end Sys2Proof.Machine
end

