-- ==== Sys2Proof/Machine/Step.lean ====
section
/-! DEFINITION. One step: one action of the host, a whole command if it is a write to CMD (R31, R59; log entry 1). -/

namespace Sys2Proof.Machine

/-- The machine performs the host's next action. -/
def step (s : State) : Host.Outcome State Fault Refusal := nextAction s

/-- `s` with that command word as the value of the host's next write to CMD (log entry 1). A word of more than 32 bits
is no command (R82): its low 32 bits are placed. -/
def State.withFetchWord (s : State) (nbits w : Nat) : State := placeCommand (tableWord nbits w) s

end Sys2Proof.Machine
end

