-- ==== Sys2Proof/Machine/Sequencer.lean ====
section
/-! DEFINITION. A command taken apart into the micro-operations the sequencer walks through (spec/10_state.md rule R32,
spec/43_init_and_update.md rule R162).

`exec` runs a command as one step, as R32 allows. Here the same command runs one micro-operation at a time, with
`State.seq` as its position; what R37 calls local to one command is held beside the state while the command runs. The
host acts on neither side of a micro-step (R31, R59). -/

namespace Sys2Proof.Machine

/-- A running command: the engine, the decoded command, the operands sampled at the CMD write, the padding scratch
(R31, R37). -/
structure Running where
  eng     : State
  cmd     : Instr
  src     : Nat
  dst     : Nat
  len     : Nat
  scratch : Vector Byte 128
  deriving DecidableEq, Repr

/-- The CMD write moves the sequencer to CHECK and samples the operands (R31, R32). -/
def beginCommand (i : Instr) (s : State) : Running where
  eng     := { s with seq := ⟨.check, 0, 0⟩ }
  cmd     := i
  src     := s.src
  dst     := s.dst
  len     := s.len
  scratch := Vector.replicate 128 0

/-- The command begins by running INIT (R155, R195). -/
def initialises : Instr → Bool
  | .init | .hash => true
  | .update | .updateMulti | .updateLast | .finish => false

/-- The command pads (R178, R195). -/
def pads : Instr → Bool
  | .updateLast | .hash => true
  | .init | .update | .updateMulti | .finish => false

/-- The command stores the digest (R180, R195). -/
def stores : Instr → Bool
  | .finish | .hash => true
  | .init | .update | .updateMulti | .updateLast => false

/-- How many message blocks the command absorbs (R158, R159, R195). -/
def messageBlocks (r : Running) : Nat :=
  match r.cmd with
  | .update => 1
  | .updateMulti => r.len
  | .hash => r.len / 64
  | .init | .updateLast | .finish => 0

/-- The address of the final partial block (R178, R195). -/
def tailAddr (r : Running) : Nat :=
  match r.cmd with
  | .hash => r.src + 64 * (r.len / 64)
  | .init | .update | .updateMulti | .updateLast | .finish => r.src

/-- The number of bytes of the final partial block (R178, R195). -/
def tailLen (r : Running) : Nat :=
  match r.cmd with
  | .hash => r.len % 64
  | .init | .update | .updateMulti | .updateLast | .finish => r.len

/-- Message blocks and padding blocks together. -/
def totalBlocks (r : Running) : Nat :=
  messageBlocks r + (if pads r.cmd then padBlocks (tailLen r) else 0)

/-- The bytes of block `i` of the command: from MEM for a message block, from the scratch for a padding block. -/
def blockBytes (r : Running) (i : Nat) : Vector Byte 64 :=
  if i < messageBlocks r then memRead r.eng.mem (r.src + 64 * i) 64
  else if i = messageBlocks r then padBlock r.scratch 0
  else padBlock r.scratch 1

/-- The running command with the engine in state `s`, its sequencer moved to a phase and loop index in the same
block. -/
def moveTo (r : Running) (p : Phase) (t : Fin 64) (s : State) : Running :=
  { r with eng := { s with seq := ⟨p, t, s.seq.i⟩ } }

/-- The phase that follows once `i` blocks are absorbed (R162): the next message block, then PAD, then the padding
blocks, then STORE for FINISH and HASH, then IDLE. -/
def phaseAfter (r : Running) (i : Nat) : Phase :=
  if i < messageBlocks r then .load
  else if i < totalBlocks r then (if i = messageBlocks r then .pad else .load)
  else if stores r.cmd then .store
  else .idle

/-- The sequencer moves on with `i` blocks absorbed. IDLE is `(IDLE, 0, 0)` (R32). R32 gives `i` only as the index of a
block, 0 to n-1. That in PAD and STORE, too, `i` is the number of blocks absorbed so far, so that HASH reaches STORE with
`i` = total blocks and FINISH with `i = 0`, is a DESIGN CHOICE (log entry 14); no host can read it. -/
def proceed (r : Running) (i : Nat) (s : State) : State :=
  match phaseAfter r i with
  | .idle => toIdle s
  | p => { s with seq := ⟨p, 0, i⟩ }

/-- FINAL is set when a command that pads has absorbed its last block (R178). -/
def finalAfter (r : Running) (i : Nat) (s : State) : State :=
  if pads r.cmd && i == totalBlocks r then setFinal s else s

/-- One micro-operation (R162). -/
def microStep (r : Running) : Running :=
  let s := r.eng
  let t := s.seq.t
  match s.seq.phase with
  | .idle => r
  | .check =>
    match verdict r.cmd s with
    | .accepted => { r with eng := proceed r 0 (if initialises r.cmd then initState s else s) }
    | .refusedFaulted => { r with eng := toIdle s }
    | .refused code => { r with eng := raiseFault code s }
  | .pad =>
    let p := padScratch (memRead s.mem (tailAddr r) (tailLen r)) s.hash.counter
    moveTo { r with scratch := p } .load 0 s
  | .load =>
    moveTo r .sched1 0
      { s with hash := s.hash.loadBlk (blockBytes r s.seq.i), held := { s.held with data := true } }
  | .sched1 =>
    moveTo r (if t = 15 then .sched2 else .sched1) (t + 1)
      { s with hash := s.hash.sched1 ⟨t.val % 16, by omega⟩ }
  | .sched2 =>
    moveTo r (if t = 63 then .copy else .sched2) (t + 1)
      { s with hash := s.hash.sched2 t, held := { s.held with ws := true } }
  | .copy =>
    moveTo r .round 0 { s with hash := s.hash.copy, held := { s.held with whashCopy := true } }
  | .round =>
    moveTo r (if t = 63 then .feed else .round) (t + 1) { s with hash := s.hash.round t }
  | .feed =>
    moveTo r .count 0 { s with hash := s.hash.feedFwd, held := { s.held with whash := true } }
  | .count =>
    let i := s.seq.i + 1
    let counted := { s with hash := s.hash.count, held := { s.held with counter := true } }
    { r with eng := proceed r i (finalAfter r i counted) }
  | .store => { r with eng := toIdle (storeDigest r.dst s) }

/-- `n` micro-operations in a row. -/
def microSteps : Nat → Running → Running
  | 0, r => r
  | n + 1, r => microSteps n (microStep r)

end Sys2Proof.Machine
end

