-- ==== Sys2Proof/Safety.lean ====
section
/-! DEFINITION. What claims speak of: the invariants of the machine, what it means for a command to change nothing
else, and the digest of a byte string written over lists, without the engine's buffers. -/

namespace Sys2Proof.Safety

open Sys2Proof Sys2Proof.Machine

/-! ### Invariants -/

/-- MEM is in its canonical form and lists only AW-bit addresses (R51). -/
def MemoryOk (s : State) : Prop :=
  Memory.wf s.mem = true ∧ ∀ c ∈ s.mem, c.1 < 2 ^ s.platform.aw

/-- Once INIT_DONE = 1, `k == K` (R21, R35(3)). -/
def ConstantsOk (s : State) : Prop := s.status.initDone = true → s.hash.k = K

/-- ERR is 0 exactly when FAULT is 0, and only an initialised session is final (R30). -/
def StatusOk (s : State) : Prop :=
  (s.status.fault = false ↔ s.status.err = .eNone) ∧ (s.status.final = true → s.status.initDone = true)

/-- `ws` is a message schedule of `data` (R23, R131, R132). -/
def IsSchedule (data : Vector Word 16) (ws : Vector Word 64) : Prop :=
  (∀ t (h : t < 16), ws[t] = data[t]) ∧
  ∀ t (_ : 16 ≤ t) (h : t < 64),
    ws[t] = ssig1 ws[t - 2] + ws[t - 7] + ssig0 ws[t - 15] + ws[t - 16]

/-- Once any block has been absorbed, `ws` is the schedule of the block in `data` (R133). -/
def ScheduleOk (s : State) : Prop := s.held.ws = true → IsSchedule s.hash.data s.hash.ws

/-- Before the first INIT or HASH no field of the hash state holds a value; afterwards `k`, `whash`, `counter` do; and
`data`, `ws`, `whash_copy` are written together (R38). -/
def HeldOk (s : State) : Prop :=
  s.held.k = s.status.initDone ∧ s.held.whash = s.status.initDone ∧ s.held.counter = s.status.initDone ∧
  s.held.ws = s.held.data ∧ s.held.whashCopy = s.held.data ∧
  (s.held.data = true → s.status.initDone = true) ∧ (s.status.final = true → s.held.data = true)

/-- Once INIT_DONE = 1, `whash` is the chaining value of `counter` many blocks, from `H0` (R35(4)). -/
def ChainOk (s : State) : Prop :=
  s.status.initDone = true → s.hash.k = K ∧ ∃ blocks : List (Vector Byte 64),
    blocks.length = s.hash.counter.toNat ∧
      s.hash.whash = blocks.foldl (fun h b => (HashState.absorb b { s.hash with whash := h }).whash) H0

/-- The sequencer is in `(IDLE, 0, 0)` between host actions (R32). -/
def SeqOk (s : State) : Prop := s.seq = Seq.idle

/-! ### The digest of a byte string, over lists -/

/-- Big-endian words of a byte string whose length is a multiple of 4 (R54). -/
def wordsOf : List Byte → List Word
  | a :: b :: c :: d :: rest => be32 a b c d :: wordsOf rest
  | _ => []

/-- Bytes of a list of words, most significant first (R55). -/
def bytesOf : List Word → List Byte
  | [] => []
  | w :: rest => wordByte w 0 :: wordByte w 1 :: wordByte w 2 :: wordByte w 3 :: bytesOf rest

/-- `n` more words of the schedule, the newest word first: seen from `ws[t]`, the list begins with `ws[t-1]` (R132). -/
def extendSchedule : Nat → List Word → List Word
  | 0, l => l
  | n + 1, l =>
    extendSchedule n ((ssig1 (l.getD 1 0) + l.getD 6 0 + ssig0 (l.getD 14 0) + l.getD 15 0) :: l)

/-- The 64 schedule words of a block of 16 (R130). -/
def scheduleOf (block : List Word) : List Word := (extendSchedule 48 block.reverse).reverse

/-- The compression function: 64 rounds from `h`, one for each round constant and schedule word, and the feed-forward
(R140, R142, R143). -/
def compressOf (h : Vector Word 8) (block : List Word) : Vector Word 8 :=
  let v := (K.toList.zip (scheduleOf block)).foldl (fun v kw => roundVector kw.1 kw.2 v) h
  Vector.zipWith (· + ·) h v

/-- The chaining value after `n` blocks of a byte string (R24). -/
def chainOf : Nat → List Byte → Vector Word 8 → Vector Word 8
  | 0, _, h => h
  | n + 1, m, h => chainOf n (m.drop 64) (compressOf h (wordsOf (m.take 64)))

/-- The message, `0x80`, `z = (55 - L) mod 64` zero bytes, and the 8-byte big-endian bit length (R181). -/
def paddedMessage (m : List Byte) : List Byte :=
  m ++ [0x80] ++ List.replicate ((119 - m.length % 64) % 64) 0 ++
    (be64Bytes (BitVec.ofNat 64 (8 * m.length))).toList

/-- The digest of a byte string (R2, R181). -/
def digestOf (m : List Byte) : List Byte :=
  bytesOf (chainOf ((paddedMessage m).length / 64) (paddedMessage m) H0).toList

/-- The bytes of MEM a command reads. -/
def bytesAt (m : Memory) (addr n : Nat) : List Byte := (memRead m addr n).toList

/-! ### What a command may change -/

/-- What no command writes: the operand registers, the platform, the host's program and records (R27). -/
def SameSurroundings (s t : State) : Prop :=
  t.operands = s.operands ∧ t.platform = s.platform ∧ t.host = s.host ∧ t.reads = s.reads ∧ t.draws = s.draws

/-- Every byte of MEM reads as before, but for the 32 bytes at `dst` (R52). -/
def SameBytesOutside (dst : Nat) (s t : State) : Prop :=
  ∀ a, (a < dst ∨ dst + 32 ≤ a) → Memory.read t.mem a = Memory.read s.mem a

/-- The situation Absorbing of R36: INIT_DONE = 1, FINAL = 0, FAULT = 0. -/
def Absorbing (s : State) : Prop :=
  s.status.initDone = true ∧ s.status.final = false ∧ s.status.fault = false

/-- The conditions under which HASH is accepted, from SRC, DST, LEN and the platform alone (R195, R196). -/
def HashConditions (s : State) : Prop :=
  s.len ≤ 2 ^ 38 - 73 ∧ ¬ (0 < s.len ∧ s.src < s.dst + 32 ∧ s.dst < s.src + s.len) ∧
  admits s.platform s.src s.len .read = true ∧ admits s.platform s.dst 32 .write = true

/-- The state with the operand registers as a host writes them for `src`, `dst`, `len` (R89). -/
def withOperands (src dst len : BitVec 64) (s : State) : State :=
  { s with operands :=
    { srcLo := src.extractLsb' 0 32, srcHi := src.extractLsb' 32 32
      dstLo := dst.extractLsb' 0 32, dstHi := dst.extractLsb' 32 32
      lenLo := len.extractLsb' 0 32, lenHi := len.extractLsb' 32 32 } }

/-- Two states that differ at most in what elements hold that hold no value (R38). -/
def AlikeWhereHeld (s t : State) : Prop :=
  t = { s with hash := t.hash } ∧
  (s.held.k = true → t.hash.k = s.hash.k) ∧ (s.held.data = true → t.hash.data = s.hash.data) ∧
  (s.held.ws = true → t.hash.ws = s.hash.ws) ∧ (s.held.whash = true → t.hash.whash = s.hash.whash) ∧
  (s.held.whashCopy = true → t.hash.whashCopy = s.hash.whashCopy) ∧
  (s.held.counter = true → t.hash.counter = s.hash.counter)

/-- Two outcomes that are alike: next states that are, or the same stop. -/
def AlikeOutcomes : Host.Outcome State Fault Refusal → Host.Outcome State Fault Refusal → Prop
  | .next s, .next t => AlikeWhereHeld s t
  | .fault f, .fault g => f = g
  | .refused r, .refused q => r = q
  | _, _ => False

/-- The host's next action writes the word `c` to CMD, by register number or by bus address (R29, R31). -/
def WritesCommand (s : State) (c : Word) : Prop :=
  ∃ rest, s.host = .wr 0 c :: rest ∨ s.host = .busWr s.platform.regBase 4 c :: rest

/-- The host's next action is a reset (R240, R242). -/
def Resets (s : State) : Prop :=
  ∃ rest, s.host = .reset :: rest ∨ ∃ c, s.host = .resetDuring c :: rest

end Sys2Proof.Safety
end

