-- ==== Sys2Proof/Certificates/Slice0/Obligations.lean ====
section
/-! DEFINITION. The statements for the provers. OBLIGATIONS.json gives each its tier, its basis and the rules of spec/
it cites. -/

open Sys2Proof Sys2Proof.Machine Sys2Proof.Safety

/-! ### Encoding -/

/-- The six words of the opcode map, and words of spec/95_test_vectors.md section 2.7 that are illegal (R86, R87). -/
def Obligations.SpecWordsDecode : Prop :=
  decode 0x00000001#32 = .ok .init ∧ decode 0x00000002#32 = .ok .update ∧
  decode 0x00000003#32 = .ok .updateMulti ∧ decode 0x00000004#32 = .ok .updateLast ∧
  decode 0x00000005#32 = .ok .finish ∧ decode 0x00000006#32 = .ok .hash ∧
  decode 0x00000000#32 = .error .opcode ∧ decode 0x00000007#32 = .error .opcode ∧
  decode 0x000000FF#32 = .error .opcode ∧ decode 0x00000101#32 = .error .zeroField ∧
  decode 0x80000006#32 = .error .zeroField ∧ decode 0xFFFFFFFF#32 = .error .zeroField

/-- Over all 2^32 words: a word decodes to a command exactly when it is that command's encoding, and the encodings are
the six words of R86 (R82, R86, R92). -/
def Obligations.DecodeEncodeRoundTrip : Prop :=
  (∀ i : Instr, i.wellFormed = true ∧ decode (encode i) = .ok i) ∧
  (∀ (c : Word) (i : Instr), decode c = .ok i → c = encode i) ∧
  (∀ i : Instr, zeroField (encode i) = 0 ∧ opcodeField (encode i) = opcodeOf i)

/-- A word is illegal exactly when a bit of 31:8 is set or OPCODE is 0x00 or 0x07 to 0xFF, and a write of an illegal
word to CMD is refused with E_ILLEGAL: the step is next, FAULT and ERR change if FAULT was 0, and nothing else does
(R87, R212, R213). -/
def Obligations.IllegalWordIsRefused : Prop :=
  ∀ (s : State) (c : Word) (rest : List HostAction), s.host = .wr 0 c :: rest →
    (c.toNat / 256 ≠ 0 ∨ c.toNat % 256 = 0 ∨ 7 ≤ c.toNat % 256) →
      step s = .next { s with
        host := rest
        seq := Seq.idle
        status := if s.status.fault then s.status else { s.status with fault := true, err := .eIllegal } }

/-- A write to CMD of a word that decodes to a command runs exactly that command, after the action is taken off the
host's program; nothing else surrounds `exec` (R31, R59). -/
def Obligations.StepRunsDecodedCommand : Prop :=
  ∀ (s : State) (c : Word) (i : Instr) (rest : List HostAction),
    s.host = .wr 0 c :: rest → decode c = .ok i → step s = exec i { s with host := rest }

/-- With no host action pending the engine does nothing (R229, R240). -/
def Obligations.IdleEngineDoesNothing : Prop :=
  ∀ s : State, s.host = [] → step s = .next s

/-! ### Acceptance and refusal -/

/-- The table of R214: an illegal word is refused first, and for each command the first failing check decides, and an
accepted command runs. That E_ALIAS compares SRC and DST whole where AW < 64 is the model's choice, log entry 19. -/
def Obligations.CheckTableDecides : Prop :=
  ∀ s : State,
    (∀ c e, decode c = .error e → commandWrite c s = .next (raiseFault .eIllegal s)) ∧
    (∀ c i, decode c = .ok i → commandWrite c s = exec i s) ∧
    exec .init s = .next (toIdle (initState s)) ∧
    exec .update s = .next (
      if s.status.fault then toIdle s
      else if s.status.initDone = false then raiseFault .eUninit s
      else if s.status.final then raiseFault .eSeq s
      else if ¬ s.hash.counter.toNat < 2 ^ 32 - 1 then raiseFault .eCounter s
      else if admits s.platform s.src 64 .read = false then raiseFault .eBus s
      else toIdle (updateState s)) ∧
    exec .updateMulti s = .next (
      if s.status.fault then toIdle s
      else if s.status.initDone = false then raiseFault .eUninit s
      else if s.status.final then raiseFault .eSeq s
      else if ¬ (s.hash.counter.toNat : Int) < 2 ^ 32 - (s.len : Int) then raiseFault .eCounter s
      else if admits s.platform s.src (64 * s.len) .read = false then raiseFault .eBus s
      else toIdle (updateMultiState s)) ∧
    exec .updateLast s = .next (
      if s.status.fault then toIdle s
      else if s.status.initDone = false then raiseFault .eUninit s
      else if s.status.final then raiseFault .eSeq s
      else if ¬ s.len < 64 then raiseFault .eLen s
      else if ¬ 64 * s.hash.counter.toNat + s.len < 2 ^ 61 then raiseFault .eLen s
      else if ¬ s.hash.counter.toNat < (if s.len < 56 then 2 ^ 32 - 1 else 2 ^ 32 - 2) then raiseFault .eCounter s
      else if admits s.platform s.src s.len .read = false then raiseFault .eBus s
      else toIdle (updateLastState s)) ∧
    exec .finish s = .next (
      if s.status.fault then toIdle s
      else if s.status.initDone = false then raiseFault .eUninit s
      else if admits s.platform s.dst 32 .write = false then raiseFault .eBus s
      else toIdle (finishState s)) ∧
    exec .hash s = .next (
      if ¬ s.len < 2 ^ 61 then raiseFault .eLen s
      else if ¬ s.len ≤ 2 ^ 38 - 73 then raiseFault .eCounter s
      else if 0 < s.len ∧ s.src < s.dst + 32 ∧ s.dst < s.src + s.len then raiseFault .eAlias s
      else if admits s.platform s.src s.len .read = false then raiseFault .eBus s
      else if admits s.platform s.dst 32 .write = false then raiseFault .eBus s
      else toIdle (hashState s))

/-- No command ends in a fault or a refusal of the model: accepted or refused, the machine goes on (R212, R214, R221). -/
def Obligations.CommandsNeverStop : Prop :=
  ∀ (i : Instr) (s : State), ∃ t, exec i s = .next t

/-- A refused command changes nothing but FAULT and ERR, and those only when FAULT was 0: not the hash state, not
INIT_DONE or FINAL, not the operand registers, not MEM; the sequencer is IDLE; and whether it is refused does not depend on
MEM, of which no byte is read. The same holds for an illegal word (R212). -/
def Obligations.RefusalChangesOnlyFaultAndErr : Prop :=
  (∀ (i : Instr) (s : State), verdict i s ≠ .accepted →
    (s.status.fault = true → exec i s = .next { s with seq := Seq.idle }) ∧
    (s.status.fault = false → ∃ code, code ≠ FaultCode.eNone ∧ verdict i s = .refused code ∧
      exec i s = .next { s with
        seq := Seq.idle
        status := { s.status with fault := true, err := code } }) ∧
    ∀ m : Memory, verdict i { s with mem := m } = verdict i s) ∧
  (∀ (c : Word) (e : Illegal) (s : State), decode c = .error e →
    (s.status.fault = true → commandWrite c s = .next { s with seq := Seq.idle }) ∧
    (s.status.fault = false → commandWrite c s = .next { s with
      seq := Seq.idle
      status := { s.status with fault := true, err := .eIllegal } }))

/-- After a command FAULT is 0 exactly when the command was accepted, so a host that reads STATUS after each command
knows (R224). -/
def Obligations.FaultClearIffAccepted : Prop :=
  ∀ (i : Instr) (s t : State), exec i s = .next t → (t.status.fault = false ↔ verdict i s = .accepted)

/-- FAULT is sticky: a step that clears it performed a reset, or a write to CMD of the word of INIT or HASH (R30,
R222). -/
def Obligations.OnlyInitHashResetClearFault : Prop :=
  ∀ s t : State, step s = .next t → s.status.fault = true → t.status.fault = false →
    Resets s ∨ WritesCommand s (encode .init) ∨ WritesCommand s (encode .hash)

/-- `INIT_DONE` is cleared by reset only (R30). -/
def Obligations.OnlyResetClearsInitDone : Prop :=
  ∀ s t : State, step s = .next t → s.status.initDone = true → t.status.initDone = false → Resets s

/-! ### INIT -/

/-- INIT is accepted in every state; it loads `k`, `whash` and `counter`, sets STATUS to INIT_DONE alone, keeps `data`,
`ws`, `whash_copy`, the operand registers and MEM; and INIT after INIT changes nothing (R155). -/
def Obligations.InitStartsSession : Prop :=
  ∀ s : State, ∃ t, exec .init s = .next t ∧
    t.hash.k = K ∧ t.hash.whash = H0 ∧ t.hash.counter = 0 ∧ statusWord t.status = 0x00000001#32 ∧
    t.hash.data = s.hash.data ∧ t.hash.ws = s.hash.ws ∧ t.hash.whashCopy = s.hash.whashCopy ∧
    t.held.k = true ∧ t.held.whash = true ∧ t.held.counter = true ∧
    t.held.data = s.held.data ∧ t.held.ws = s.held.ws ∧ t.held.whashCopy = s.held.whashCopy ∧
    t.mem = s.mem ∧ SameSurroundings s t ∧ t.seq = Seq.idle ∧
    exec .init t = .next t

/-! ### Round functions -/

/-- `rotr(x, n)`, `0 < n < 32`: result bit `i` is bit `(i + n) mod 32` of `x` (R114). -/
def Obligations.RotrRotatesBits : Prop :=
  ∀ (x : Word) (n i : Nat), 0 < n → n < 32 → i < 32 →
    (rotr x n).getLsbD i = x.getLsbD ((i + n) % 32)

/-- `Ch` takes the bit of `y` where `x` has a 1 and of `z` where it has a 0; `Maj` takes the value at least two operand
bits have (R117, R118). -/
def Obligations.ChoosesAndMajority : Prop :=
  ∀ (x y z : Word) (i : Nat),
    (ch x y z).getLsbD i = (if x.getLsbD i then y.getLsbD i else z.getLsbD i) ∧
    (maj x y z).getLsbD i =
      decide (2 ≤ (x.getLsbD i).toNat + (y.getLsbD i).toNat + (z.getLsbD i).toNat)

/-- The four sigma functions with the amounts of R123, bit by bit: rotations wrap, the third terms of the small sigmas
are shifts (R119 to R123). -/
def Obligations.SigmaAmounts : Prop :=
  ∀ (x : Word) (i : Nat), i < 32 →
    (bsig0 x).getLsbD i =
      ((x.getLsbD ((i + 2) % 32) ^^ x.getLsbD ((i + 13) % 32)) ^^ x.getLsbD ((i + 22) % 32)) ∧
    (bsig1 x).getLsbD i =
      ((x.getLsbD ((i + 6) % 32) ^^ x.getLsbD ((i + 11) % 32)) ^^ x.getLsbD ((i + 25) % 32)) ∧
    (ssig0 x).getLsbD i =
      ((x.getLsbD ((i + 7) % 32) ^^ x.getLsbD ((i + 18) % 32)) ^^ (decide (i + 3 < 32) && x.getLsbD (i + 3))) ∧
    (ssig1 x).getLsbD i =
      ((x.getLsbD ((i + 17) % 32) ^^ x.getLsbD ((i + 19) % 32)) ^^ (decide (i + 10 < 32) && x.getLsbD (i + 10)))

/-! ### Byte order -/

/-- `bytesToWordsBE` and `wordsToBytesBE` are inverse, and the byte at the lowest address is the most significant (R54,
R55). -/
def Obligations.WordsAndBytesAreInverse : Prop :=
  (∀ (n : Nat) (ws : Vector Word n), bytesToWordsBE (wordsToBytesBE ws) = ws) ∧
  (∀ (n : Nat) (bs : Vector Byte (4 * n)), wordsToBytesBE (bytesToWordsBE bs) = bs) ∧
  (∀ (n : Nat) (bs : Vector Byte (4 * n)) (i : Nat) (h : i < n),
    (bytesToWordsBE bs)[i].toNat =
      bs[4 * i].toNat * 2 ^ 24 + bs[4 * i + 1].toNat * 2 ^ 16 + bs[4 * i + 2].toNat * 2 ^ 8 + bs[4 * i + 3].toNat)

/-! ### Scheduler and compression -/

/-- `ROUND(t)`: the eight new components from the eight old ones, and nothing else changes (R142). -/
def Obligations.RoundUpdatesVector : Prop :=
  ∀ (t : Fin 64) (h : HashState),
    let v := h.whashCopy
    let t1 := v[7] + bsig1 v[4] + ch v[4] v[5] v[6] + h.k[t] + h.ws[t]
    let t2 := bsig0 v[0] + maj v[0] v[1] v[2]
    (h.round t).whashCopy[0] = t1 + t2 ∧ (h.round t).whashCopy[1] = v[0] ∧ (h.round t).whashCopy[2] = v[1] ∧
    (h.round t).whashCopy[3] = v[2] ∧ (h.round t).whashCopy[4] = v[3] + t1 ∧ (h.round t).whashCopy[5] = v[4] ∧
    (h.round t).whashCopy[6] = v[5] ∧ (h.round t).whashCopy[7] = v[6] ∧
    h.round t = { h with whashCopy := (h.round t).whashCopy }

/-- After an absorption `data` is the block as big-endian words and `ws` is its schedule: `ws[t]` is the `t`-th input
word for `t < 16` and satisfies the recurrence for `16 <= t < 64` (R130 to R133, R156). -/
def Obligations.AbsorbComputesSchedule : Prop :=
  ∀ (b : Vector Byte 64) (h : HashState),
    (h.absorb b).data = bytesToWordsBE b ∧ IsSchedule (h.absorb b).data (h.absorb b).ws

/-- Feed-forward: after an absorption each word of `whash` is its old value plus the word of the final round vector, which
stays in `whash_copy`; `k` is unchanged and the counter is one more (R143, R145, R157, R160). -/
def Obligations.AbsorbFeedsForward : Prop :=
  ∀ (b : Vector Byte 64) (h : HashState),
    (∀ i (hi : i < 8), (h.absorb b).whash[i] = h.whash[i] + (h.absorb b).whashCopy[i]) ∧
    (h.absorb b).k = h.k ∧ (h.absorb b).counter = h.counter + 1

/-- An absorption depends on the previous state only through `whash`, `k` and `counter` (R157). -/
def Obligations.AbsorbDependsOnlyOnChain : Prop :=
  ∀ (b : Vector Byte 64) (h g : HashState),
    h.whash = g.whash → h.k = g.k → h.counter = g.counter → h.absorb b = g.absorb b

/-- The engine's 64 schedule steps and 64 rounds in its buffers compute the compression function written over lists (R130,
R140). -/
def Obligations.AbsorbIsCompression : Prop :=
  ∀ (b : Vector Byte 64) (h : HashState), h.k = K →
    (h.absorb b).whash = compressOf h.whash (wordsOf b.toList)

/-! ### UPDATE and UPDATE_MULTI -/

/-- UPDATE, accepted: it absorbs the 64 bytes at SRC, the counter goes up by one, and STATUS, MEM and everything outside
the hash state stay (R158). -/
def Obligations.UpdateAbsorbsOneBlock : Prop :=
  ∀ s : State, Absorbing s → s.hash.counter.toNat < 2 ^ 32 - 1 → admits s.platform s.src 64 .read = true →
    ∃ t, exec .update s = .next t ∧
      t.hash = s.hash.absorb (memRead s.mem s.src 64) ∧
      t.hash.counter.toNat = s.hash.counter.toNat + 1 ∧
      t.held = s.held.afterAbsorb ∧ t.status = s.status ∧ t.mem = s.mem ∧ SameSurroundings s t ∧
      t.seq = Seq.idle

/-- UPDATE_MULTI, accepted: it absorbs the `n` blocks at `SRC + 64*i` left to right, the counter goes up by `n`, and
nothing else changes; with `n = 0` nothing changes at all (R159). -/
def Obligations.UpdateMultiAbsorbsBlocks : Prop :=
  ∀ s : State, Absorbing s → s.hash.counter.toNat < 2 ^ 32 - s.len →
    admits s.platform s.src (64 * s.len) .read = true →
    ∃ t, exec .updateMulti s = .next t ∧
      t.hash = Nat.fold s.len (fun i _ h => h.absorb (memRead s.mem (s.src + 64 * i) 64)) s.hash ∧
      t.hash.counter.toNat = s.hash.counter.toNat + s.len ∧
      t.held = (if s.len = 0 then s.held else s.held.afterAbsorb) ∧
      t.status = s.status ∧ t.mem = s.mem ∧ SameSurroundings s t ∧ t.seq = Seq.idle ∧
      (s.len = 0 → t = { s with seq := Seq.idle })

/-- UPDATE_MULTI of `n1` blocks and then of the `n2` blocks that follow leaves what UPDATE_MULTI of all `n1 + n2` leaves,
and UPDATE is UPDATE_MULTI of one block (R161). -/
def Obligations.UpdateMultiComposes : Prop :=
  (∀ (s t1 t2 t : State) (src dst src2 len1 len2 len : BitVec 64),
    src2.toNat = src.toNat + 64 * len1.toNat → len.toNat = len1.toNat + len2.toNat →
    verdict .updateMulti (withOperands src dst len1 s) = .accepted →
    exec .updateMulti (withOperands src dst len1 s) = .next t1 →
    verdict .updateMulti (withOperands src2 dst len2 t1) = .accepted →
    exec .updateMulti (withOperands src2 dst len2 t1) = .next t2 →
    verdict .updateMulti (withOperands src dst len s) = .accepted →
    exec .updateMulti (withOperands src dst len s) = .next t →
    t2.hash = t.hash ∧ t2.held = t.held ∧ t2.status = t.status ∧ t2.mem = t.mem) ∧
  (∀ s : State, s.len = 1 → exec .update s = exec .updateMulti s)

/-! ### Padding, UPDATE_LAST, FINISH -/

/-- The padded region: the message bytes, the marker `0x80`, zeros, the 8 bytes of the bit length, most significant first, at
the end of one block for `len` in 0..55 and of two for 56..63 (R175, R176). -/
def Obligations.PaddingLayout : Prop :=
  ∀ (len : Nat) (d : Vector Byte len) (c : Word), len < 64 →
    let size := if len < 56 then 64 else 128
    (∀ j (h : j < len) (h' : j < 128), (padScratch d c)[j] = d[j]) ∧
    (∀ h : len < 128, (padScratch d c)[len] = 0x80) ∧
    (∀ j (h : j < 128), len < j → j < size - 8 → (padScratch d c)[j] = 0) ∧
    (∀ j (h : j < 8) (h' : size - 8 + j < 128),
      (padScratch d c)[size - 8 + j].toNat = (c.toNat * 64 + len) * 8 / 2 ^ (56 - 8 * j) % 256) ∧
    (∀ j (h : j < 128), size ≤ j → (padScratch d c)[j] = 0)

/-- The length field: `(counter * 64 + len) * 8` with no overflow of 64 bits, its bytes most significant first (R56,
R177). -/
def Obligations.LengthFieldIsBitLength : Prop :=
  (∀ (c : Word) (len : Nat), len < 64 → (lengthBits c len).toNat = (c.toNat * 64 + len) * 8) ∧
  (∀ (v : BitVec 64) (j : Nat) (h : j < 8), (be64Bytes v)[j].toNat = v.toNat / 2 ^ (56 - 8 * j) % 256)

/-- UPDATE_LAST, accepted: the counter is captured, the remaining bytes are padded, the one or two blocks are absorbed in
order, FINAL is set; MEM and everything outside the hash state and STATUS stay (R178). -/
def Obligations.UpdateLastFinalizes : Prop :=
  ∀ s : State, Absorbing s → s.len < 64 →
    s.hash.counter.toNat < (if s.len < 56 then 2 ^ 32 - 1 else 2 ^ 32 - 2) →
    admits s.platform s.src s.len .read = true →
    ∃ t, exec .updateLast s = .next t ∧
      (let p := padScratch (memRead s.mem s.src s.len) s.hash.counter
       t.hash = if s.len < 56 then s.hash.absorb (padBlock p 0)
                else (s.hash.absorb (padBlock p 0)).absorb (padBlock p 1)) ∧
      t.hash.counter.toNat = s.hash.counter.toNat + (if s.len < 56 then 1 else 2) ∧
      t.held = s.held.afterAbsorb ∧ t.status = { s.status with final := true } ∧
      t.mem = s.mem ∧ SameSurroundings s t ∧ t.seq = Seq.idle

/-- What UPDATE_LAST leaves in the buffers: `data[14] || data[15]` is the bit length of the message, and `ws[0..15]`
equals `data[0..15]` (R182). -/
def Obligations.LastBlockHoldsBitLength : Prop :=
  ∀ s t : State, verdict .updateLast s = .accepted → exec .updateLast s = .next t →
    (t.hash.data[14].toNat * 2 ^ 32 + t.hash.data[15].toNat = (64 * s.hash.counter.toNat + s.len) * 8) ∧
    ∀ i (h : i < 16), t.hash.ws[i] = t.hash.data[i]

/-- FINISH, accepted whatever FINAL is: byte `dst + 4*i + j` becomes byte `j` of `whash[i]`, every other byte of MEM
reads as before, and the hash state and STATUS are unchanged (R180). -/
def Obligations.FinishStoresDigest : Prop :=
  ∀ s : State, s.mem.wf = true → s.status.fault = false → s.status.initDone = true →
    admits s.platform s.dst 32 .write = true →
    ∃ t, exec .finish s = .next t ∧
      (∀ i (hi : i < 8) j, j < 4 →
        (t.mem.read (s.dst + 4 * i + j)).toNat = s.hash.whash[i].toNat / 2 ^ (24 - 8 * j) % 256) ∧
      SameBytesOutside s.dst s t ∧ t.mem.wf = true ∧
      t.hash = s.hash ∧ t.held = s.held ∧ t.status = s.status ∧ SameSurroundings s t ∧ t.seq = Seq.idle

/-! ### HASH -/

/-- HASH, accepted whatever STATUS holds: STATUS ends as `0x00000003`, the counter at `n + 1` or `n + 2`, `k` is `K`, the
digest stands at DST as FINISH would store it, every other byte of MEM and everything else reads as before (R195,
R197). -/
def Obligations.HashHashesMessage : Prop :=
  ∀ s : State, s.mem.wf = true → HashConditions s →
    ∃ t, exec .hash s = .next t ∧
      statusWord t.status = 0x00000003#32 ∧ t.hash.k = K ∧
      t.hash.counter.toNat = s.len / 64 + (if s.len % 64 < 56 then 1 else 2) ∧
      (∀ i (hi : i < 8) j, j < 4 →
        (t.mem.read (s.dst + 4 * i + j)).toNat = t.hash.whash[i].toNat / 2 ^ (24 - 8 * j) % 256) ∧
      SameBytesOutside s.dst s t ∧ t.mem.wf = true ∧
      t.held = ⟨true, true, true, true, true, true⟩ ∧ SameSurroundings s t ∧ t.seq = Seq.idle

/-- HASH equals the manual composition: whenever HASH is accepted, INIT, UPDATE_MULTI of the full blocks, UPDATE_LAST of the
remainder and FINISH, each with the operands a host writes for it, are accepted too and leave the same hash state, STATUS
and MEM (R198). The platform has an AW of at most 64, so that `src + 64*n` is a SRC the host can write. -/
def Obligations.HashEqualsManualComposition : Prop :=
  ∀ (s t : State) (src dst len : BitVec 64), s.platform.wellFormed = true →
    verdict .hash (withOperands src dst len s) = .accepted →
    exec .hash (withOperands src dst len s) = .next t →
    ∃ s1 s2 s3 s4,
      exec .init s = .next s1 ∧
      verdict .updateMulti (withOperands src dst (len / 64) s1) = .accepted ∧
      exec .updateMulti (withOperands src dst (len / 64) s1) = .next s2 ∧
      verdict .updateLast (withOperands (src + 64 * (len / 64)) dst (len % 64) s2) = .accepted ∧
      exec .updateLast (withOperands (src + 64 * (len / 64)) dst (len % 64) s2) = .next s3 ∧
      verdict .finish (withOperands src dst len s3) = .accepted ∧
      exec .finish (withOperands src dst len s3) = .next s4 ∧
      s4.hash = t.hash ∧ s4.held = t.held ∧ s4.status = t.status ∧ s4.mem = t.mem

/-- The 32 bytes an accepted HASH stores are the digest of the message, as written over lists: pad with `0x80`, the least
number of zeros and the bit length, chain the compression function over the blocks, serialize (R2, R181, R195). -/
def Obligations.HashStoresReferenceDigest : Prop :=
  ∀ s t : State, s.mem.wf = true → verdict .hash s = .accepted → exec .hash s = .next t →
    bytesAt t.mem s.dst 32 = digestOf (bytesAt s.mem s.src s.len)

/-- The digest depends only on the message bytes: two accepted HASH commands on equal messages, from any states, at any
addresses, on any platforms, leave the same hash state and the same 32 bytes (R199). -/
def Obligations.HashIsPureFunction : Prop :=
  ∀ s t s' t' : State, s.mem.wf = true → s'.mem.wf = true →
    verdict .hash s = .accepted → verdict .hash s' = .accepted →
    exec .hash s = .next t → exec .hash s' = .next t' →
    bytesAt s.mem s.src s.len = bytesAt s'.mem s'.src s'.len →
    t.hash = t'.hash ∧ bytesAt t.mem s.dst 32 = bytesAt t'.mem s'.dst 32

/-- Which lengths HASH refuses, and how: `2^61` and above with E_LEN, `2^38 - 72` up to there with E_COUNTER, before any
work; with FAULT = 1 already, nothing changes at all; and up to `2^38 - 73` neither check refuses (R196). -/
def Obligations.HashRefusesLongMessages : Prop :=
  ∀ s : State,
    (2 ^ 61 ≤ s.len → s.status.fault = false → exec .hash s = .next { s with
      seq := Seq.idle, status := { s.status with fault := true, err := .eLen } }) ∧
    (2 ^ 38 - 72 ≤ s.len → s.len < 2 ^ 61 → s.status.fault = false → exec .hash s = .next { s with
      seq := Seq.idle, status := { s.status with fault := true, err := .eCounter } }) ∧
    (2 ^ 38 - 72 ≤ s.len → s.status.fault = true → exec .hash s = .next { s with seq := Seq.idle }) ∧
    (s.len ≤ 2 ^ 38 - 73 → verdict .hash s ≠ .refused .eLen ∧ verdict .hash s ≠ .refused .eCounter)

/-- The known answers of the source for the empty message and for `"abc"`, through HASH from the reset state
(spec/95_test_vectors.md section 1.1). -/
def Obligations.KnownAnswers : Prop :=
  (∃ t, exec .hash (withOperands 0x1000 0x2000 0 State.reset) = .next t ∧
    bytesAt t.mem 0x2000 32 =
      [0xe3, 0xb0, 0xc4, 0x42, 0x98, 0xfc, 0x1c, 0x14, 0x9a, 0xfb, 0xf4, 0xc8, 0x99, 0x6f, 0xb9, 0x24,
       0x27, 0xae, 0x41, 0xe4, 0x64, 0x9b, 0x93, 0x4c, 0xa4, 0x95, 0x99, 0x1b, 0x78, 0x52, 0xb8, 0x55]) ∧
  (∃ t, exec .hash (withOperands 0x1000 0x2000 3
      { State.reset with mem := [(0x1000, 0x61), (0x1001, 0x62), (0x1002, 0x63)] }) = .next t ∧
    bytesAt t.mem 0x2000 32 =
      [0xba, 0x78, 0x16, 0xbf, 0x8f, 0x01, 0xcf, 0xea, 0x41, 0x41, 0x40, 0xde, 0x5d, 0xae, 0x22, 0x23,
       0xb0, 0x03, 0x61, 0xa3, 0x96, 0x17, 0x7a, 0x9c, 0xb4, 0x10, 0xff, 0x61, 0xf2, 0x00, 0x15, 0xad])

/-! ### Frames and footprints over all commands -/

/-- No command writes SRC, DST, LEN, the platform's parameters, the host's program or the model's records (R27). -/
def Obligations.CommandsKeepSurroundings : Prop :=
  ∀ (i : Instr) (s t : State), exec i s = .next t → SameSurroundings s t

/-- Which bytes of MEM a command writes: none for INIT, UPDATE, UPDATE_MULTI and UPDATE_LAST, the 32 bytes at DST for
FINISH and HASH, and none when refused (R52). -/
def Obligations.MemoryWriteFootprint : Prop :=
  ∀ (i : Instr) (s t : State), exec i s = .next t →
    ((i ≠ .finish ∧ i ≠ .hash) ∨ verdict i s ≠ .accepted → t.mem = s.mem) ∧
    SameBytesOutside s.dst s t

/-- Which bytes of MEM a command reads: two states that differ only in MEM, and agree on the bytes R52 lists for the
command, end alike in everything but MEM (R52). -/
def Obligations.MemoryReadFootprint : Prop :=
  ∀ (i : Instr) (s t : State) (m : Memory),
    (∀ a, (match i with
        | .update => s.src ≤ a ∧ a < s.src + 64
        | .updateMulti => s.src ≤ a ∧ a < s.src + 64 * s.len
        | .updateLast | .hash => s.src ≤ a ∧ a < s.src + s.len
        | .init | .finish => False) → m.read a = s.mem.read a) →
    exec i s = .next t → ∃ t', exec i { s with mem := m } = .next t' ∧ t = { t' with mem := t.mem }

/-- A command ignores the operand registers it does not use (R27, R81, R85). -/
def Obligations.UnusedOperandsAreIgnored : Prop :=
  ∀ (s t : State) (src dst len src' dst' len' : BitVec 64),
    (exec .init (withOperands src dst len s) = .next t →
      exec .init (withOperands src' dst' len' s) = .next (withOperands src' dst' len' t)) ∧
    (exec .update (withOperands src dst len s) = .next t →
      exec .update (withOperands src dst' len' s) = .next (withOperands src dst' len' t)) ∧
    (exec .updateMulti (withOperands src dst len s) = .next t →
      exec .updateMulti (withOperands src dst' len s) = .next (withOperands src dst' len t)) ∧
    (exec .updateLast (withOperands src dst len s) = .next t →
      exec .updateLast (withOperands src dst' len s) = .next (withOperands src dst' len t)) ∧
    (exec .finish (withOperands src dst len s) = .next t →
      exec .finish (withOperands src' dst len' s) = .next (withOperands src' dst len' t))

/-- Outside INIT and HASH a command never lowers the counter, and it stays below 2^32: it does not wrap (R26, R160). -/
def Obligations.CounterNeverWraps : Prop :=
  ∀ (i : Instr) (s t : State), exec i s = .next t → i ≠ .init → i ≠ .hash →
    s.hash.counter.toNat ≤ t.hash.counter.toNat

/-! ### The register space and MEM as the host sees them -/

/-- The register map: a number names a register exactly when it is that register's number; 0x008 to 0x0FF and everything
above 0x1A0 is reserved (R29). -/
def Obligations.RegisterMapIsExact : Prop :=
  (∀ (n : Nat) (r : RegName), registerAt n = some r ↔ registerNumber r = n) ∧
  (∀ n : Nat, registerAt n = none ↔ (0x008 ≤ n ∧ n ≤ 0x0FF) ∨ 0x1A1 ≤ n)

/-- The access rules of REG: a write to STATUS or to the STATE window changes nothing, a write to an operand half stores the
word in it and in no other register, whatever STATUS is, a read of CMD returns 0, and an access to a reserved number is
refused (R31, R34). -/
def Obligations.RegisterAccessRules : Prop :=
  ∀ (s : State) (v : Word),
    (∀ n, n = 0x001 ∨ (0x100 ≤ n ∧ n ≤ 0x1A0) → registerWrite n v s = .next s) ∧
    registerWrite 0x002 v s = .next { s with operands := { s.operands with srcLo := v } } ∧
    registerWrite 0x003 v s = .next { s with operands := { s.operands with srcHi := v } } ∧
    registerWrite 0x004 v s = .next { s with operands := { s.operands with dstLo := v } } ∧
    registerWrite 0x005 v s = .next { s with operands := { s.operands with dstHi := v } } ∧
    registerWrite 0x006 v s = .next { s with operands := { s.operands with lenLo := v } } ∧
    registerWrite 0x007 v s = .next { s with operands := { s.operands with lenHi := v } } ∧
    registerRead 0x000 s = .next { s with reads := 0 :: s.reads } ∧
    registerRead 0x002 s = .next { s with reads := s.operands.srcLo :: s.reads } ∧
    registerRead 0x003 s = .next { s with reads := s.operands.srcHi :: s.reads } ∧
    registerRead 0x004 s = .next { s with reads := s.operands.dstLo :: s.reads } ∧
    registerRead 0x005 s = .next { s with reads := s.operands.dstHi :: s.reads } ∧
    registerRead 0x006 s = .next { s with reads := s.operands.lenLo :: s.reads } ∧
    registerRead 0x007 s = .next { s with reads := s.operands.lenHi :: s.reads } ∧
    (∀ n, (0x008 ≤ n ∧ n ≤ 0x0FF) ∨ 0x1A1 ≤ n →
      registerWrite n v s = .refused (.reservedRegister n) ∧ registerRead n s = .refused (.reservedRegister n))

/-- A read of STATUS returns INIT_DONE, FINAL, FAULT in bits 0, 1, 2, the code in bits 15:8 and 0 in every reserved bit
(R30, R211). -/
def Obligations.StatusReadsFlags : Prop :=
  ∀ s : State, ∃ w : Word, registerRead 0x001 s = .next { s with reads := w :: s.reads } ∧
    w.getLsbD 0 = s.status.initDone ∧ w.getLsbD 1 = s.status.final ∧ w.getLsbD 2 = s.status.fault ∧
    w.toNat / 2 ^ 8 = (match s.status.err with
      | .eNone => 0 | .eIllegal => 1 | .eUninit => 2 | .eSeq => 3
      | .eLen => 4 | .eCounter => 5 | .eAlias => 6 | .eBus => 7) ∧
    (w.toNat / 2 ^ 3) % 2 ^ 5 = 0

/-- The STATE window: a read of an element that holds a value returns it and changes nothing but what the host has read; a
read of one that holds none returns a free value and draws a new one for the next read (R33). The free value is the
model's `Config.freeWord`, log entry 3; nothing here depends on what it is. -/
def Obligations.StateWindowShowsHashState : Prop :=
  ∀ s : State,
    let answer := fun (held : Bool) (w : Word) =>
      if held then ({ s with reads := w :: s.reads } : State)
      else { s with reads := Config.freeWord s.draws :: s.reads, draws := s.draws + 1 }
    (∀ i (h : i < 64), registerRead (0x100 + i) s = .next (answer s.held.k s.hash.k[i])) ∧
    (∀ i (h : i < 16), registerRead (0x140 + i) s = .next (answer s.held.data s.hash.data[i])) ∧
    (∀ i (h : i < 64), registerRead (0x150 + i) s = .next (answer s.held.ws s.hash.ws[i])) ∧
    (∀ i (h : i < 8), registerRead (0x190 + i) s = .next (answer s.held.whash s.hash.whash[i])) ∧
    (∀ i (h : i < 8), registerRead (0x198 + i) s = .next (answer s.held.whashCopy s.hash.whashCopy[i])) ∧
    registerRead 0x1A0 s = .next (answer s.held.counter s.hash.counter)

/-- Bus accesses to REG: a 4-byte access at `REG_BASE + 4*i` is an access to register `i`; a narrower, wider or
misaligned access is refused (R29, R34). -/
def Obligations.BusAccessesReachRegisters : Prop :=
  ∀ (s : State) (v : Word),
    (∀ i, perform (.busWr (s.platform.regBase + 4 * i) 4 v) s = registerWrite i v s ∧
      perform (.busRd (s.platform.regBase + 4 * i) 4) s = registerRead i s) ∧
    (∀ addr bytes, bytes ≠ 4 → perform (.busWr addr bytes v) s = .refused (.registerAccessWidth bytes) ∧
      perform (.busRd addr bytes) s = .refused (.registerAccessWidth bytes)) ∧
    (∀ addr, s.platform.regBase ≤ addr → (addr - s.platform.regBase) % 4 ≠ 0 →
      perform (.busWr addr 4 v) s = .refused (.registerMisaligned addr) ∧
      perform (.busRd addr 4) s = .refused (.registerMisaligned addr))

/-- The host's own accesses to MEM: a byte stored is what a later load delivers, a store changes no other byte and nothing
of the engine, and an address that is no AW-bit address stops with a fault of its own name (R50, R51, R63). -/
def Obligations.HostMemoryAccess : Prop :=
  ∀ (s : State) (a : Nat) (b : Byte), s.mem.wf = true →
    (a < 2 ^ s.platform.aw → ∃ t, perform (.store a b) s = .next t ∧
      t = { s with mem := t.mem } ∧ t.mem.wf = true ∧ t.mem.read a = b ∧
      (∀ x, x ≠ a → t.mem.read x = s.mem.read x) ∧
      perform (.load a) t = .next { t with reads := b.setWidth 32 :: t.reads }) ∧
    (2 ^ s.platform.aw ≤ a → perform (.store a b) s = .fault (.noSuchAddress a) ∧
      perform (.load a) s = .fault (.noSuchAddress a))

/-- The properties R61 asks of Admit: an empty range is admitted, a range that wraps is not, a range that meets one of the
engine's own registers is not, and no command changes the platform. And, read from R198 (DEDUCED, log entry 7), where a
message may be read and a digest stored clear of it, at a length HASH accepts, every run of the message's full blocks may
be read and the rest after the last of them. -/
def Obligations.AdmitProperties : Prop :=
  ∀ (p : Platform) (addr n : Nat) (kind : AccessKind),
    admits p addr 0 kind = true ∧
    (0 < n → 2 ^ p.aw < addr + n → admits p addr n kind = false) ∧
    (∀ (r : RegName) (j : Nat), j < 4 → addr ≤ p.regBase + 4 * registerNumber r + j →
      p.regBase + 4 * registerNumber r + j < addr + n → admits p addr n kind = false) ∧
    (∀ (i : Instr) (s t : State), exec i s = .next t → t.platform = s.platform) ∧
    (∀ dst, n ≤ 2 ^ 38 - 73 → admits p addr n .read = true → admits p dst 32 .write = true →
      (n = 0 ∨ dst + 32 ≤ addr ∨ addr + n ≤ dst) →
      (∀ i m, 64 * (i + m) ≤ n → admits p (addr + 64 * i) (64 * m) .read = true) ∧
      admits p (addr + 64 * (n / 64)) (n % 64) .read = true)

/-- Admit is open: every predicate with the properties R61 asks of it, under which R198 holds of the commands (DEDUCED, log
entry 7), is the Admit of some platform of the model, whatever AW and REG_BASE are. The last premise says that R198 holds:
where a message may be read and a digest stored clear of it, so that HASH is accepted, the reads of every manual
composition are admitted; where no HASH is accepted it asks nothing. -/
def Obligations.EveryAdmitIsAPlatform : Prop :=
  ∀ (aw regBase : Nat) (P : Nat → Nat → AccessKind → Bool),
    (∀ addr kind, P addr 0 kind = true) →
    (∀ addr n kind, 0 < n → 2 ^ aw < addr + n → P addr n kind = false) →
    (∀ addr n kind (r : RegName) (j : Nat), j < 4 → addr ≤ regBase + 4 * registerNumber r + j →
      regBase + 4 * registerNumber r + j < addr + n → P addr n kind = false) →
    (∀ addr n dst, n ≤ 2 ^ 38 - 73 → P addr n .read = true → P dst 32 .write = true →
      (n = 0 ∨ dst + 32 ≤ addr ∨ addr + n ≤ dst) →
      (∀ i m, 64 * (i + m) ≤ n → P (addr + 64 * i) (64 * m) .read = true) ∧
      P (addr + 64 * (n / 64)) (n % 64) .read = true) →
    ∃ grants, ∀ addr n kind, admits ⟨aw, regBase, grants⟩ addr n kind = P addr n kind

/-! ### Reset -/

/-- What reset leaves of the engine: STATUS reads 0, SRC = DST = LEN = 0, the sequencer is IDLE and no field of the hash
state holds a value (R38, R240). The model's choices beside that: at power-on no host action is pending (log entry 1) and
nothing is listed in MEM (log entry 5); a reset later keeps MEM, the platform and the host's program (log entry 13). -/
def Obligations.ResetValues : Prop :=
  let engineIsReset := fun t : State =>
    statusWord t.status = 0 ∧ t.src = 0 ∧ t.dst = 0 ∧ t.len = 0 ∧ t.seq = Seq.idle ∧
    t.held = ⟨false, false, false, false, false, false⟩ ∧ situation t.status = .uninitialised
  engineIsReset State.reset ∧ State.reset.host = [] ∧ State.reset.mem = [] ∧
  ∀ (s : State) (rest : List HostAction), s.host = .reset :: rest →
    ∃ t, step s = .next t ∧ engineIsReset t ∧ t.mem = s.mem ∧ t.platform = s.platform ∧ t.host = rest

/-- A reset in the middle of a command: the engine is in its reset state, and each byte of MEM holds its old value or, in the
32 bytes at DST, the value the completed command would have left (R242). Which of the two is free, log entry 4. That every
other byte of MEM and the platform survive the reset is the model's choice (DEDUCED, log entry 13). -/
def Obligations.MidCommandReset : Prop :=
  ∀ (s done : State) (c : Word), s.mem.wf = true → commandWrite c s = .next done →
    ∃ t, perform (.resetDuring c) s = .next t ∧
      t.status = Status.reset ∧ t.held = Held.reset ∧ t.operands = OperandRegs.reset ∧ t.seq = Seq.idle ∧
      t.platform = s.platform ∧ t.mem.wf = true ∧
      ∀ a, t.mem.read a = s.mem.read a ∨
        s.dst ≤ a ∧ a < s.dst + 32 ∧ t.mem.read a = done.mem.read a

/-! ### Invariants of every step -/

/-- At reset every invariant below holds. -/
def Obligations.ResetMeetsInvariants : Prop :=
  MemoryOk State.reset ∧ StatusOk State.reset ∧ HeldOk State.reset ∧ ConstantsOk State.reset ∧
  ScheduleOk State.reset ∧ ChainOk State.reset ∧ SeqOk State.reset ∧ launchPlatform.wellFormed = true

/-- MEM keeps its canonical form and lists only AW-bit addresses, whatever the machine does (R51, R61). The model's choices
beside that: AW and REG_BASE are fixed for the whole run and Admit changes only when the platform changes it between two
commands, which R61(4) allows (log entry 7), and a reset changes none of them (log entry 13). -/
def Obligations.StepKeepsMemory : Prop :=
  ∀ s t : State, MemoryOk s → step s = .next t → MemoryOk t ∧
    t.platform.aw = s.platform.aw ∧ t.platform.regBase = s.platform.regBase ∧
    ((∀ grants rest, s.host ≠ .setAdmit grants :: rest) → t.platform = s.platform)

/-- ERR is 0 exactly when FAULT is 0, and FINAL implies INIT_DONE, after every step (R30, R36). -/
def Obligations.StepKeepsStatus : Prop :=
  ∀ s t : State, StatusOk s → step s = .next t → StatusOk t

/-- Which fields hold a value follows the lifecycle, after every step (R38). -/
def Obligations.StepKeepsHeld : Prop :=
  ∀ s t : State, HeldOk s → step s = .next t → HeldOk t

/-- `k == K` from the first accepted INIT or HASH onward (R21, R35). -/
def Obligations.StepKeepsConstants : Prop :=
  ∀ s t : State, ConstantsOk s → step s = .next t → ConstantsOk t

/-- `ws` is the schedule of the block in `data` once any block has been absorbed (R23, R133). -/
def Obligations.StepKeepsSchedule : Prop :=
  ∀ s t : State, ScheduleOk s → step s = .next t → ScheduleOk t

/-- `whash` is the chaining value, from `H0`, of `counter` many blocks absorbed in order, after every step (R24, R26,
R35). -/
def Obligations.StepKeepsChain : Prop :=
  ∀ s t : State, ChainOk s → step s = .next t → ChainOk t

/-- The sequencer stands in `(IDLE, 0, 0)` between host actions (R32). -/
def Obligations.StepKeepsSequencerIdle : Prop :=
  ∀ s t : State, SeqOk s → step s = .next t → SeqOk t

/-- An element that holds no value is never read: two states that differ only in such elements step alike, so what the
model puts there at reset (log entry 2) cannot be observed (R38, R241). The free values that R33 gives reads of such elements
are taken to be the same in both runs (log entry 3). -/
def Obligations.UnheldElementsAreUnobservable : Prop :=
  ∀ s t : State, HeldOk s → AlikeWhereHeld s t → AlikeOutcomes (step s) (step t)

/-! ### Micro-steps -/

/-- The sequencer's micro-operations compute the command: from the CMD write, finitely many micro-steps reach the state in
which `exec` leaves the machine, with the sequencer back in IDLE (R31, R32, R162). What counts as one micro-operation, and
`i` in PAD and STORE, is the model's choice, log entry 14. -/
def Obligations.SequencerRefinesExec : Prop :=
  ∀ (i : Instr) (s t : State), exec i s = .next t →
    ∃ n, (microSteps n (beginCommand i s)).eng = t ∧ t.seq = Seq.idle ∧
      ∀ m, n ≤ m → (microSteps m (beginCommand i s)).eng = t
end

