-- ==== Sys2Proof/Laws/Memory.lean ====
section
/-! SUPPORT. The laws of MEM: a byte written is read back, every other byte is left alone, and every operation keeps
the canonical form (R51; spec/20_memory.md). -/

namespace Sys2Proof.Machine

/-! ### Reading one byte -/

@[simp] theorem Memory.read_nil (x : Nat) : Memory.read [] x = unlistedByte := rfl

theorem Memory.read_cons (a : Nat) (b : Byte) (m : Memory) (x : Nat) :
    Memory.read ((a, b) :: m) x = if x = a then b else Memory.read m x := rfl

/-- Addresses below the first one listed are unlisted. -/
theorem Memory.read_below {lo : Nat} {m : Memory} (h : Memory.wfFrom lo m = true) {x : Nat} (hx : x < lo) :
    Memory.read m x = unlistedByte := by
  induction m generalizing lo with
  | nil => rfl
  | cons c m ih =>
    obtain ⟨a, b⟩ := c
    simp only [Memory.wfFrom, Bool.and_eq_true, decide_eq_true_eq] at h
    rw [Memory.read_cons, if_neg (by omega), ih h.2 (by omega)]

/-! ### Writing one byte -/

/-- A write leaves every other address alone, whatever the list. -/
theorem Memory.read_write_other (m : Memory) {x y : Nat} (b : Byte) (h : y ≠ x) :
    Memory.read (Memory.write m x b) y = Memory.read m y := by
  induction m with
  | nil => unfold Memory.write; split <;> simp [Memory.read_cons, h]
  | cons c m ih =>
    obtain ⟨a, e⟩ := c
    unfold Memory.write
    split
    · split <;> simp [Memory.read_cons, h]
    · split
      · rename_i hxa; subst hxa
        split <;> simp [Memory.read_cons, h]
      · simp [Memory.read_cons, ih]

/-- A byte written is read back, in a canonical memory. -/
theorem Memory.read_write_same {lo : Nat} {m : Memory} (hm : Memory.wfFrom lo m = true) (x : Nat) (b : Byte) :
    Memory.read (Memory.write m x b) x = b := by
  induction m generalizing lo with
  | nil => unfold Memory.write; split <;> simp_all [Memory.read_cons]
  | cons c m ih =>
    obtain ⟨a, e⟩ := c
    simp only [Memory.wfFrom, Bool.and_eq_true, decide_eq_true_eq] at hm
    unfold Memory.write
    split
    · split
      · rename_i hb
        rw [Memory.read_cons, if_neg (by omega), Memory.read_below hm.2 (by omega), hb]
      · simp [Memory.read_cons]
    · split
      · split
        · rename_i hb
          rw [Memory.read_below hm.2 (by omega), hb]
        · simp [Memory.read_cons]
      · rw [Memory.read_cons, if_neg (by assumption), ih hm.2]

theorem Memory.write_wfFrom {lo : Nat} {m : Memory} (hm : Memory.wfFrom lo m = true) {x : Nat} (hx : lo ≤ x)
    (b : Byte) : Memory.wfFrom lo (Memory.write m x b) = true := by
  induction m generalizing lo with
  | nil => unfold Memory.write; split <;> simp_all [Memory.wfFrom]
  | cons c m ih =>
    obtain ⟨a, e⟩ := c
    have hm' := hm
    simp only [Memory.wfFrom, Bool.and_eq_true, decide_eq_true_eq] at hm
    unfold Memory.write
    split
    · split
      · exact hm'
      · simp only [Memory.wfFrom, Bool.and_eq_true, decide_eq_true_eq]
        exact ⟨⟨hx, by assumption⟩, ⟨⟨by omega, hm.1.2⟩, hm.2⟩⟩
    · split
      · rename_i hxa; subst hxa
        split
        · have weaken : ∀ {m : Memory}, Memory.wfFrom (x + 1) m = true → Memory.wfFrom lo m = true := by
            intro m h
            cases m with
            | nil => rfl
            | cons c m =>
              simp only [Memory.wfFrom, Bool.and_eq_true, decide_eq_true_eq] at h ⊢
              exact ⟨⟨by omega, h.1.2⟩, h.2⟩
          exact weaken hm.2
        · simp only [Memory.wfFrom, Bool.and_eq_true, decide_eq_true_eq]
          exact ⟨⟨hx, by assumption⟩, hm.2⟩
      · simp only [Memory.wfFrom, Bool.and_eq_true, decide_eq_true_eq]
        exact ⟨hm.1, ih hm.2 (by omega)⟩

/-- A write keeps the canonical form. -/
theorem Memory.write_wf {m : Memory} (hm : Memory.wf m = true) (x : Nat) (b : Byte) :
    Memory.wf (Memory.write m x b) = true := Memory.write_wfFrom hm (Nat.zero_le x) b

/-- A write lists nothing but what was listed before and the byte written, if that is not the unlisted one. -/
theorem Memory.mem_write {m : Memory} {x : Nat} {b : Byte} {c : Host.Cell} (hc : c ∈ Memory.write m x b) :
    c ∈ m ∨ c = (x, b) ∧ b ≠ unlistedByte := by
  induction m with
  | nil => unfold Memory.write at hc; split at hc <;> simp_all
  | cons d m ih =>
    obtain ⟨a, e⟩ := d
    unfold Memory.write at hc
    split at hc
    · split at hc
      · exact .inl hc
      · exact (List.mem_cons.mp hc).symm.imp id fun h => ⟨h, by assumption⟩
    · split at hc
      · split at hc
        · exact .inl (List.mem_cons_of_mem _ hc)
        · exact (List.mem_cons.mp hc).symm.imp (List.mem_cons_of_mem _) fun h => ⟨h, by assumption⟩
      · rcases List.mem_cons.mp hc with h | h
        · exact .inl (by rw [h]; exact List.mem_cons_self)
        · exact (ih h).imp_left (List.mem_cons_of_mem _)

/-- An address that does not read as unlisted is listed. -/
theorem Memory.listed_of_read {m : Memory} {x : Nat} (h : Memory.read m x ≠ unlistedByte) :
    ∃ c ∈ m, c.1 = x := by
  induction m with
  | nil => exact absurd rfl h
  | cons c m ih =>
    obtain ⟨a, b⟩ := c
    rw [Memory.read_cons] at h
    split at h
    · exact ⟨(a, b), List.mem_cons_self, by simp_all⟩
    · obtain ⟨c, hc, hx⟩ := ih h
      exact ⟨c, List.mem_cons_of_mem _ hc, hx⟩

/-- Canonical memories that read alike are equal. -/
theorem Memory.wfFrom_ext {lo : Nat} {m m' : Memory} (hm : Memory.wfFrom lo m = true)
    (hm' : Memory.wfFrom lo m' = true) (h : ∀ x, Memory.read m x = Memory.read m' x) : m = m' := by
  induction m generalizing lo m' with
  | nil =>
    cases m' with
    | nil => rfl
    | cons c m' =>
      obtain ⟨a, b⟩ := c
      simp only [Memory.wfFrom, Bool.and_eq_true, decide_eq_true_eq] at hm'
      have := h a
      rw [Memory.read_cons, if_pos rfl] at this
      exact absurd this.symm hm'.1.2
  | cons c m ih =>
    obtain ⟨a, b⟩ := c
    simp only [Memory.wfFrom, Bool.and_eq_true, decide_eq_true_eq] at hm
    cases m' with
    | nil =>
      have := h a
      rw [Memory.read_cons, if_pos rfl] at this
      exact absurd this hm.1.2
    | cons c' m' =>
      obtain ⟨a', b'⟩ := c'
      simp only [Memory.wfFrom, Bool.and_eq_true, decide_eq_true_eq] at hm'
      have haa : a = a' := by
        rcases Nat.lt_trichotomy a a' with hlt | heq | hlt
        · have := h a
          rw [Memory.read_cons, Memory.read_cons, if_pos rfl, if_neg (by omega),
            Memory.read_below hm'.2 (by omega)] at this
          exact absurd this hm.1.2
        · exact heq
        · have := h a'
          rw [Memory.read_cons, Memory.read_cons, if_pos rfl, if_neg (by omega),
            Memory.read_below hm.2 (by omega)] at this
          exact absurd this.symm hm'.1.2
      subst haa
      have hb : b = b' := by
        have := h a
        rwa [Memory.read_cons, Memory.read_cons, if_pos rfl, if_pos rfl] at this
      subst hb
      congr 1
      refine ih hm.2 hm'.2 fun x => ?_
      by_cases hx : x = a
      · rw [Memory.read_below hm.2 (by omega), Memory.read_below hm'.2 (by omega)]
      · have := h x
        rwa [Memory.read_cons, Memory.read_cons, if_neg hx, if_neg hx] at this

/-! ### Ranges -/

@[simp] theorem getElem_memRead (m : Memory) (addr n j : Nat) (hj : j < n) :
    (memRead m addr n)[j] = Memory.read m (addr + j) := by
  simp [memRead]

/-- A range reads the same in two memories that agree on it. -/
theorem memRead_congr {m m' : Memory} {addr n : Nat}
    (h : ∀ j < n, Memory.read m (addr + j) = Memory.read m' (addr + j)) : memRead m addr n = memRead m' addr n := by
  ext j hj
  rw [getElem_memRead, getElem_memRead, h j hj]

/-- What a loop has established after each pass: an invariant that speaks of the number of passes made. -/
theorem fold_index_induction {α : Type} (P : Nat → α → Prop) {n : Nat} (f : (j : Nat) → j < n → α → α) {m : α}
    (h0 : P 0 m) (hs : ∀ j (hj : j < n) m, P j m → P (j + 1) (f j hj m)) : P n (Nat.fold n f m) := by
  induction n with
  | zero => simpa using h0
  | succ n ih =>
    rw [Nat.fold_succ]
    exact hs n (by omega) _ (ih (fun j hj => f j (by omega)) fun j hj => hs j (by omega))

theorem memWrite_eq {n : Nat} (m : Memory) (addr : Nat) (bytes : Vector Byte n) :
    memWrite m addr bytes = Nat.fold n (fun j _ m => Memory.write m (addr + j) bytes[j]) m := by
  unfold memWrite; rfl

/-- What a loop keeps: a property that each pass of its body keeps. -/
theorem fold_induction {α : Type} (P : α → Prop) {n : Nat} (f : (j : Nat) → j < n → α → α) {m : α} (h0 : P m)
    (hs : ∀ j (hj : j < n) m, P m → P (f j hj m)) : P (Nat.fold n f m) := by
  induction n with
  | zero => simpa using h0
  | succ n ih =>
    rw [Nat.fold_succ]
    exact hs n (by omega) _ (ih (fun j hj => f j (by omega)) fun j hj => hs j (by omega))

/-- A range write keeps the canonical form. -/
theorem memWrite_wf {n : Nat} {m : Memory} (hm : Memory.wf m = true) (addr : Nat) (bytes : Vector Byte n) :
    Memory.wf (memWrite m addr bytes) = true := by
  rw [memWrite_eq]
  exact fold_induction (fun m => Memory.wf m = true) _ hm fun j _ m h => Memory.write_wf h _ _

/-- A range write lists no address but those listed before and those of the range. -/
theorem mem_memWrite {n : Nat} {m : Memory} {addr : Nat} {bytes : Vector Byte n} {c : Host.Cell}
    (hc : c ∈ memWrite m addr bytes) : c ∈ m ∨ addr ≤ c.1 ∧ c.1 < addr + n := by
  rw [memWrite_eq] at hc
  have key : ∀ c ∈ Nat.fold n (fun j _ m => Memory.write m (addr + j) bytes[j]) m,
      c ∈ m ∨ addr ≤ c.1 ∧ c.1 < addr + n := by
    refine fold_induction (fun m' => ∀ c ∈ m', c ∈ m ∨ addr ≤ c.1 ∧ c.1 < addr + n) _ (fun c hc => .inl hc) ?_
    intro j hj m' ih c hc
    rcases Memory.mem_write hc with h | ⟨rfl, -⟩
    · exact ih c h
    · exact .inr ⟨by simp, by simpa using hj⟩
  exact key c hc

/-- A range write leaves every byte outside the range alone. -/
theorem read_memWrite_outside {n : Nat} (m : Memory) {addr x : Nat} (bytes : Vector Byte n)
    (hx : x < addr ∨ addr + n ≤ x) : Memory.read (memWrite m addr bytes) x = Memory.read m x := by
  rw [memWrite_eq]
  refine fold_induction (fun m' => Memory.read m' x = Memory.read m x) _ rfl ?_
  intro j hj m' ih
  rw [Memory.read_write_other _ _ (by omega), ih]

/-- A range write stores byte `j` at `addr + j`. -/
theorem read_memWrite_inside {n : Nat} {m : Memory} (hm : Memory.wf m = true) (addr : Nat) (bytes : Vector Byte n)
    (j : Nat) (hj : j < n) : Memory.read (memWrite m addr bytes) (addr + j) = bytes[j] := by
  have key : ∀ k (hk : k ≤ n), j < k →
      Memory.wf (Nat.fold k (fun i hi m => Memory.write m (addr + i) (bytes[i]'(by omega))) m) = true ∧
      Memory.read (Nat.fold k (fun i hi m => Memory.write m (addr + i) (bytes[i]'(by omega))) m) (addr + j)
        = bytes[j] := by
    intro k
    induction k with
    | zero => intro _ h; omega
    | succ k ih =>
      intro hk hjk
      have hwf : Memory.wf (Nat.fold k (fun i hi m => Memory.write m (addr + i) (bytes[i]'(by omega))) m) = true :=
        fold_induction (fun m => Memory.wf m = true) _ hm fun j _ m h => Memory.write_wf h _ _
      rw [Nat.fold_succ]
      refine ⟨Memory.write_wf hwf _ _, ?_⟩
      by_cases hkj : j = k
      · subst hkj
        exact Memory.read_write_same hwf _ _
      · rw [Memory.read_write_other _ _ (by omega)]
        exact (ih (by omega) (by omega)).2
  rw [memWrite_eq]
  exact (key n (Nat.le_refl n) hj).2

/-- The bytes stored are the bytes read back. -/
theorem memRead_memWrite {n : Nat} {m : Memory} (hm : Memory.wf m = true) (addr : Nat) (bytes : Vector Byte n) :
    memRead (memWrite m addr bytes) addr n = bytes := by
  apply Vector.ext
  intro j hj
  rw [getElem_memRead, read_memWrite_inside hm addr bytes j hj]

theorem tornDigest_eq (before after : Memory) (dst draws : Nat) :
    tornDigest before after dst draws = Nat.fold 32 (fun j _ m =>
      if Config.freeBit (draws + j) then Memory.write m (dst + j) (Memory.read after (dst + j)) else m) before := by
  unfold tornDigest; rfl

/-- A torn digest keeps the canonical form. -/
theorem tornDigest_wf {before : Memory} (hm : Memory.wf before = true) (after : Memory) (dst draws : Nat) :
    Memory.wf (tornDigest before after dst draws) = true := by
  rw [tornDigest_eq]
  refine fold_induction (fun m => Memory.wf m = true) _ hm fun j _ m h => ?_
  split
  · exact Memory.write_wf h _ _
  · exact h

/-- A byte of a torn digest is the old byte or, in the range, the new one (R242). -/
theorem read_tornDigest {before : Memory} (hm : Memory.wf before = true) (after : Memory) (dst draws x : Nat) :
    Memory.read (tornDigest before after dst draws) x = Memory.read before x ∨
      dst ≤ x ∧ x < dst + 32 ∧ Memory.read (tornDigest before after dst draws) x = Memory.read after x := by
  rw [tornDigest_eq]
  suffices h : ∀ m, m = Nat.fold 32 (fun j _ m =>
      if Config.freeBit (draws + j) then Memory.write m (dst + j) (Memory.read after (dst + j)) else m) before →
      Memory.wf m = true ∧ (Memory.read m x = Memory.read before x ∨
        dst ≤ x ∧ x < dst + 32 ∧ Memory.read m x = Memory.read after x) from (h _ rfl).2
  rintro m rfl
  refine fold_induction (fun m => Memory.wf m = true ∧
      (Memory.read m x = Memory.read before x ∨
        dst ≤ x ∧ x < dst + 32 ∧ Memory.read m x = Memory.read after x)) _ ⟨hm, .inl rfl⟩ ?_
  rintro j hj m ⟨hwf, hr⟩
  split
  · refine ⟨Memory.write_wf hwf _ _, ?_⟩
    by_cases hx : x = dst + j
    · subst hx
      exact .inr ⟨by omega, by omega, Memory.read_write_same hwf _ _⟩
    · rw [Memory.read_write_other _ _ hx]
      exact hr
  · exact ⟨hwf, hr⟩

/-- A torn digest lists no address but those listed before or after. -/
theorem mem_tornDigest {before after : Memory} {dst draws : Nat} {c : Host.Cell}
    (hc : c ∈ tornDigest before after dst draws) : c ∈ before ∨ ∃ d ∈ after, d.1 = c.1 := by
  rw [tornDigest_eq] at hc
  refine fold_induction (fun m => ∀ c ∈ m, c ∈ before ∨ ∃ d ∈ after, d.1 = c.1) _ (fun c h => .inl h) ?_ c hc
  intro j hj m ih c hc
  split at hc
  · rcases Memory.mem_write hc with h | ⟨rfl, h⟩
    · exact ih c h
    · exact .inr (Memory.listed_of_read h)
  · exact ih c hc

/-! ### Admit (R61) -/

theorem admits_zero (p : Platform) (addr : Nat) (kind : AccessKind) : admits p addr 0 kind = true := by
  simp [admits]

/-- The range shares no byte with a register: none with CMD to LEN_HI, none with the STATE window (R29). -/
theorem meetsRegs_eq_false {p : Platform} {addr n : Nat} :
    meetsRegs p addr n = false ↔
      (p.regBase + 4 * 0x008 ≤ addr ∨ addr + n ≤ p.regBase) ∧
        (p.regBase + 4 * 0x1A1 ≤ addr ∨ addr + n ≤ p.regBase + 4 * 0x100) := by
  rw [meetsRegs, meetsRun, meetsRun, Bool.or_eq_false_iff, decide_eq_false_iff_not, decide_eq_false_iff_not]
  unfold controlRegs windowFirst windowEnd
  omega

/-- A part of a range that meets no register meets none. -/
theorem meetsRegs_part {p : Platform} {addr n addr' n' : Nat} (h : meetsRegs p addr n = false) (h1 : addr ≤ addr')
    (h2 : addr' + n' ≤ addr + n) : meetsRegs p addr' n' = false := by
  rw [meetsRegs_eq_false] at h ⊢
  omega

/-- What a granted range satisfies, and that nothing more is asked of it (R61). -/
theorem granted_iff {p : Platform} {addr n : Nat} {kind : AccessKind} :
    granted p addr n kind = true ↔
      addr + n ≤ 2 ^ p.aw ∧ meetsRegs p addr n = false ∧ ∃ g ∈ p.grants, covers g addr n kind = true := by
  simp only [granted, Bool.and_eq_true, Bool.not_eq_true', decide_eq_true_eq, List.any_eq_true, and_assoc]

theorem rangesOverlap_eq_false {src len dst : Nat} :
    rangesOverlap src len dst = false ↔ len = 0 ∨ dst + 32 ≤ src ∨ src + len ≤ dst := by
  rw [rangesOverlap, decide_eq_false_iff_not]
  omega

/-- If a digest can be stored somewhere clear of the message, it can be stored at one of the places looked at: move it
down until it meets the beginning of its grant, the message or a register. -/
theorem exists_digestPlace {p : Platform} {src size dst : Nat} (hd : granted p dst 32 .write = true)
    (ho : rangesOverlap src size dst = false) :
    ∃ d ∈ digestPlaces p src size, granted p d 32 .write = true ∧ rangesOverlap src size d = false := by
  obtain ⟨htop, hregs, g, hg, hc⟩ := granted_iff.mp hd
  cases g with
  | range base z k =>
    simp only [covers, decide_eq_true_eq] at hc
    obtain ⟨_, rfl, _⟩ := hc
    exact ⟨base, List.mem_append_right _ (List.mem_map.mpr ⟨_, hg, rfl⟩), hd, ho⟩
  | parts base z k =>
    simp only [covers, decide_eq_true_eq] at hc
    obtain ⟨rfl, hlow, hhigh⟩ := hc
    have fits : ∀ d, base ≤ d → d ≤ dst → meetsRegs p d 32 = false → granted p d 32 .write = true :=
      fun d h1 h2 h3 => granted_iff.mpr ⟨by omega, h3, _, hg, by simp only [covers, decide_eq_true_eq]; exact ⟨trivial, by omega⟩⟩
    simp only [rangesOverlap_eq_false, meetsRegs_eq_false] at hregs ho fits ⊢
    have mem : ∀ d, d = src + size ∨ d = p.regBase + 4 * 0x008 ∨ d = p.regBase + 4 * 0x1A1 ∨ d = base →
        d ∈ digestPlaces p src size := by
      rintro d (rfl | rfl | rfl | rfl)
      · exact List.mem_append_left _ (by simp)
      · exact List.mem_append_left _ (by simp [controlRegs])
      · exact List.mem_append_left _ (by simp [windowEnd])
      · exact List.mem_append_right _ (List.mem_map.mpr ⟨_, hg, rfl⟩)
    obtain ⟨d, hm, h1, h2, h3, h4, h5⟩ : ∃ d,
        (d = src + size ∨ d = p.regBase + 4 * 0x008 ∨ d = p.regBase + 4 * 0x1A1 ∨ d = base) ∧ base ≤ d ∧ d ≤ dst ∧
          (src + size ≤ dst → src + size ≤ d) ∧ (p.regBase + 4 * 0x008 ≤ dst → p.regBase + 4 * 0x008 ≤ d) ∧
            (p.regBase + 4 * 0x1A1 ≤ dst → p.regBase + 4 * 0x1A1 ≤ d) := by
      let below (x : Nat) : Nat := if x ≤ dst then x else base
      refine ⟨max (max base (below (src + size))) (max (below (p.regBase + 4 * 0x008)) (below (p.regBase + 4 * 0x1A1))),
        ?_⟩
      simp only [below]
      split_ifs <;> omega
    exact ⟨d, mem d hm, fits d h1 h2 (by omega), by omega⟩

/-- What a HASH can be accepted for, read off the platform (R196, R214). -/
theorem hashable_iff {p : Platform} {src size : Nat} :
    hashable p src size = true ↔
      size ≤ hashLimit ∧ granted p src size .read = true ∧
        ∃ dst, granted p dst 32 .write = true ∧ rangesOverlap src size dst = false := by
  simp only [hashable, Bool.and_eq_true, Bool.not_eq_true', decide_eq_true_eq, List.any_eq_true, and_assoc]
  exact and_congr_right fun _ => and_congr_right fun _ =>
    ⟨fun ⟨d, _, h⟩ => ⟨d, h⟩, fun ⟨_, hd, ho⟩ => exists_digestPlace hd ho⟩

/-- An admitted range that is not empty is granted, or is a part of a granted message (R61, R198). -/
theorem admits_pos {p : Platform} {addr n : Nat} {kind : AccessKind} (hn : 0 < n) :
    admits p addr n kind = true ↔
      granted p addr n kind = true ∨
        kind = .read ∧ ∃ base size, .range base size .read ∈ p.grants ∧ hashable p base size = true ∧
          isHashPart base size addr n = true := by
  simp only [admits, show (n == 0) = false by simp; omega, Bool.false_or, Bool.or_eq_true, Bool.and_eq_true,
    decide_eq_true_eq, List.any_eq_true]
  refine or_congr_right (and_congr_right fun _ => ⟨fun ⟨g, hg, hc⟩ => ?_, fun ⟨b, z, hg, h⟩ => ⟨_, hg, ?_⟩⟩)
  · unfold coversHashPart at hc
    split at hc
    · exact ⟨_, _, hg, by simpa using hc⟩
    · cases hc
    · cases hc
  · simpa [coversHashPart] using h

/-- To store, a range that is not empty has to be granted as it is. -/
theorem admits_write {p : Platform} {addr n : Nat} (hn : 0 < n) :
    admits p addr n .write = true ↔ granted p addr n .write = true := by
  simp [admits_pos hn]

/-- A part of a message lies in it. -/
theorem isHashPart_inside {base size addr n : Nat} (h : isHashPart base size addr n = true) :
    base ≤ addr ∧ addr + n ≤ base + size := by
  simp only [isHashPart, decide_eq_true_eq] at h
  omega

/-- A part of a part of a message is a part of it: the commands of a manual composition may be split again. -/
theorem isHashPart_trans {base size addr n addr' n' : Nat} (h : isHashPart base size addr n = true)
    (h' : isHashPart addr n addr' n' = true) : isHashPart base size addr' n' = true := by
  simp only [isHashPart, decide_eq_true_eq] at h h' ⊢
  omega

/-- Where an admitted range that is not empty lies (R61). -/
theorem admits_inside {p : Platform} {addr n : Nat} {kind : AccessKind} (hn : 0 < n)
    (h : admits p addr n kind = true) : addr + n ≤ 2 ^ p.aw ∧ meetsRegs p addr n = false := by
  rcases (admits_pos hn).mp h with h | ⟨_, b, z, _, hz, hp⟩
  · exact ⟨(granted_iff.mp h).1, (granted_iff.mp h).2.1⟩
  · obtain ⟨htop, hregs, _⟩ := granted_iff.mp (hashable_iff.mp hz).2.1
    have := isHashPart_inside hp
    exact ⟨by omega, meetsRegs_part hregs this.1 this.2⟩

/-- What the manual composition reads in place of an accepted HASH is admitted too: every run of full blocks and the rest
(R198). -/
theorem admits_hashPart {p : Platform} {src size dst addr n : Nat} (hr : admits p src size .read = true)
    (hs : size ≤ hashLimit) (hw : admits p dst 32 .write = true) (ho : rangesOverlap src size dst = false)
    (hp : isHashPart src size addr n = true) : admits p addr n .read = true := by
  rcases Nat.eq_zero_or_pos n with rfl | hn
  · exact admits_zero _ _ _
  have hin := isHashPart_inside hp
  rw [admits_pos hn]
  rcases (admits_pos (by omega)).mp hr with hgr | ⟨_, b, z, hg, hz, hp'⟩
  · obtain ⟨htop, hregs, g, hg, hc⟩ := granted_iff.mp hgr
    cases g with
    | parts b z k =>
      simp only [covers, decide_eq_true_eq] at hc
      refine .inl (granted_iff.mpr ⟨by omega, meetsRegs_part hregs hin.1 hin.2, _, hg, ?_⟩)
      simp only [covers, decide_eq_true_eq]
      exact ⟨hc.1, by omega⟩
    | range b z k =>
      simp only [covers, decide_eq_true_eq] at hc
      obtain ⟨rfl, rfl, rfl⟩ := hc
      exact .inr ⟨rfl, _, _, hg, hashable_iff.mpr ⟨hs, hgr, dst, (admits_write (by omega)).mp hw, ho⟩, hp⟩
  · exact .inr ⟨rfl, b, z, hg, hz, isHashPart_trans hp' hp⟩

end Sys2Proof.Machine
end

