-- ==== Sys2Proof/Laws/State.lean ====
section
/-! SUPPORT. What each named update of the state does to each field. Later proofs rewrite with these and do not unfold
an update.

Each is proved by `cases` and not by a bare `rfl`, so that a rewrite carries a proof term: an update applied to the
result of a loop is then never compared with that result by computation. -/

namespace Sys2Proof.Machine


/-! ### `toIdle` -/

@[simp] theorem toIdle_hash (s : State) : (toIdle s).hash = s.hash := by cases s; rfl
@[simp] theorem toIdle_held (s : State) : (toIdle s).held = s.held := by cases s; rfl
@[simp] theorem toIdle_status (s : State) : (toIdle s).status = s.status := by cases s; rfl
@[simp] theorem toIdle_operands (s : State) : (toIdle s).operands = s.operands := by cases s; rfl
@[simp] theorem toIdle_seq (s : State) : (toIdle s).seq = Seq.idle := by cases s; rfl
@[simp] theorem toIdle_mem (s : State) : (toIdle s).mem = s.mem := by cases s; rfl
@[simp] theorem toIdle_platform (s : State) : (toIdle s).platform = s.platform := by cases s; rfl
@[simp] theorem toIdle_host (s : State) : (toIdle s).host = s.host := by cases s; rfl
@[simp] theorem toIdle_reads (s : State) : (toIdle s).reads = s.reads := by cases s; rfl
@[simp] theorem toIdle_draws (s : State) : (toIdle s).draws = s.draws := by cases s; rfl

/-! ### `setFinal` -/

@[simp] theorem setFinal_hash (s : State) : (setFinal s).hash = s.hash := by cases s; rfl
@[simp] theorem setFinal_held (s : State) : (setFinal s).held = s.held := by cases s; rfl
@[simp] theorem setFinal_status (s : State) : (setFinal s).status = { s.status with final := true } := by cases s; rfl
@[simp] theorem setFinal_operands (s : State) : (setFinal s).operands = s.operands := by cases s; rfl
@[simp] theorem setFinal_seq (s : State) : (setFinal s).seq = s.seq := by cases s; rfl
@[simp] theorem setFinal_mem (s : State) : (setFinal s).mem = s.mem := by cases s; rfl
@[simp] theorem setFinal_platform (s : State) : (setFinal s).platform = s.platform := by cases s; rfl
@[simp] theorem setFinal_host (s : State) : (setFinal s).host = s.host := by cases s; rfl
@[simp] theorem setFinal_reads (s : State) : (setFinal s).reads = s.reads := by cases s; rfl
@[simp] theorem setFinal_draws (s : State) : (setFinal s).draws = s.draws := by cases s; rfl

/-! ### `initState` -/

@[simp] theorem initState_hash (s : State) : (initState s).hash = s.hash.load := by cases s; rfl
@[simp] theorem initState_held (s : State) : (initState s).held = s.held.afterInit := by cases s; rfl
@[simp] theorem initState_status (s : State) : (initState s).status = statusAfterInit := by cases s; rfl
@[simp] theorem initState_operands (s : State) : (initState s).operands = s.operands := by cases s; rfl
@[simp] theorem initState_seq (s : State) : (initState s).seq = s.seq := by cases s; rfl
@[simp] theorem initState_mem (s : State) : (initState s).mem = s.mem := by cases s; rfl
@[simp] theorem initState_platform (s : State) : (initState s).platform = s.platform := by cases s; rfl
@[simp] theorem initState_host (s : State) : (initState s).host = s.host := by cases s; rfl
@[simp] theorem initState_reads (s : State) : (initState s).reads = s.reads := by cases s; rfl
@[simp] theorem initState_draws (s : State) : (initState s).draws = s.draws := by cases s; rfl

/-! ### `absorb` -/

@[simp] theorem absorb_hash (b : Vector Byte 64) (s : State) : (absorb b s).hash = s.hash.absorb b := by cases s; rfl
@[simp] theorem absorb_held (b : Vector Byte 64) (s : State) : (absorb b s).held = s.held.afterAbsorb := by cases s; rfl
@[simp] theorem absorb_status (b : Vector Byte 64) (s : State) : (absorb b s).status = s.status := by cases s; rfl
@[simp] theorem absorb_operands (b : Vector Byte 64) (s : State) : (absorb b s).operands = s.operands := by cases s; rfl
@[simp] theorem absorb_seq (b : Vector Byte 64) (s : State) : (absorb b s).seq = s.seq := by cases s; rfl
@[simp] theorem absorb_mem (b : Vector Byte 64) (s : State) : (absorb b s).mem = s.mem := by cases s; rfl
@[simp] theorem absorb_platform (b : Vector Byte 64) (s : State) : (absorb b s).platform = s.platform := by cases s; rfl
@[simp] theorem absorb_host (b : Vector Byte 64) (s : State) : (absorb b s).host = s.host := by cases s; rfl
@[simp] theorem absorb_reads (b : Vector Byte 64) (s : State) : (absorb b s).reads = s.reads := by cases s; rfl
@[simp] theorem absorb_draws (b : Vector Byte 64) (s : State) : (absorb b s).draws = s.draws := by cases s; rfl

/-! ### `storeDigest` -/

@[simp] theorem storeDigest_hash (dst : Nat) (s : State) : (storeDigest dst s).hash = s.hash := by cases s; rfl
@[simp] theorem storeDigest_held (dst : Nat) (s : State) : (storeDigest dst s).held = s.held := by cases s; rfl
@[simp] theorem storeDigest_status (dst : Nat) (s : State) : (storeDigest dst s).status = s.status := by cases s; rfl
@[simp] theorem storeDigest_operands (dst : Nat) (s : State) :
    (storeDigest dst s).operands = s.operands := by cases s; rfl
@[simp] theorem storeDigest_seq (dst : Nat) (s : State) : (storeDigest dst s).seq = s.seq := by cases s; rfl
@[simp] theorem storeDigest_mem (dst : Nat) (s : State) :
    (storeDigest dst s).mem = memWrite s.mem dst (wordsToBytesBE s.hash.whash) := by cases s; rfl
@[simp] theorem storeDigest_platform (dst : Nat) (s : State) :
    (storeDigest dst s).platform = s.platform := by cases s; rfl
@[simp] theorem storeDigest_host (dst : Nat) (s : State) : (storeDigest dst s).host = s.host := by cases s; rfl
@[simp] theorem storeDigest_reads (dst : Nat) (s : State) : (storeDigest dst s).reads = s.reads := by cases s; rfl
@[simp] theorem storeDigest_draws (dst : Nat) (s : State) : (storeDigest dst s).draws = s.draws := by cases s; rfl

/-! ### `engineReset` -/

@[simp] theorem engineReset_hash (s : State) : (engineReset s).hash = HashState.reset := by cases s; rfl
@[simp] theorem engineReset_held (s : State) : (engineReset s).held = Held.reset := by cases s; rfl
@[simp] theorem engineReset_status (s : State) : (engineReset s).status = Status.reset := by cases s; rfl
@[simp] theorem engineReset_operands (s : State) : (engineReset s).operands = OperandRegs.reset := by cases s; rfl
@[simp] theorem engineReset_seq (s : State) : (engineReset s).seq = Seq.idle := by cases s; rfl
@[simp] theorem engineReset_mem (s : State) : (engineReset s).mem = s.mem := by cases s; rfl
@[simp] theorem engineReset_platform (s : State) : (engineReset s).platform = s.platform := by cases s; rfl
@[simp] theorem engineReset_host (s : State) : (engineReset s).host = s.host := by cases s; rfl
@[simp] theorem engineReset_reads (s : State) : (engineReset s).reads = s.reads := by cases s; rfl
@[simp] theorem engineReset_draws (s : State) : (engineReset s).draws = s.draws := by cases s; rfl

/-! ### `setAdmit` -/

@[simp] theorem setAdmit_hash (g : List Grant) (s : State) : (setAdmit g s).hash = s.hash := by cases s; rfl
@[simp] theorem setAdmit_held (g : List Grant) (s : State) : (setAdmit g s).held = s.held := by cases s; rfl
@[simp] theorem setAdmit_status (g : List Grant) (s : State) : (setAdmit g s).status = s.status := by cases s; rfl
@[simp] theorem setAdmit_operands (g : List Grant) (s : State) : (setAdmit g s).operands = s.operands := by cases s; rfl
@[simp] theorem setAdmit_seq (g : List Grant) (s : State) : (setAdmit g s).seq = s.seq := by cases s; rfl
@[simp] theorem setAdmit_mem (g : List Grant) (s : State) : (setAdmit g s).mem = s.mem := by cases s; rfl
@[simp] theorem setAdmit_platform (g : List Grant) (s : State) : (setAdmit g s).platform = { s.platform with grants := g } := by cases s; rfl
@[simp] theorem setAdmit_host (g : List Grant) (s : State) : (setAdmit g s).host = s.host := by cases s; rfl
@[simp] theorem setAdmit_reads (g : List Grant) (s : State) : (setAdmit g s).reads = s.reads := by cases s; rfl
@[simp] theorem setAdmit_draws (g : List Grant) (s : State) : (setAdmit g s).draws = s.draws := by cases s; rfl

/-! ### `deliver` -/

@[simp] theorem deliver_hash (v : Word) (s : State) : (deliver v s).hash = s.hash := by cases s; rfl
@[simp] theorem deliver_held (v : Word) (s : State) : (deliver v s).held = s.held := by cases s; rfl
@[simp] theorem deliver_status (v : Word) (s : State) : (deliver v s).status = s.status := by cases s; rfl
@[simp] theorem deliver_operands (v : Word) (s : State) : (deliver v s).operands = s.operands := by cases s; rfl
@[simp] theorem deliver_seq (v : Word) (s : State) : (deliver v s).seq = s.seq := by cases s; rfl
@[simp] theorem deliver_mem (v : Word) (s : State) : (deliver v s).mem = s.mem := by cases s; rfl
@[simp] theorem deliver_platform (v : Word) (s : State) : (deliver v s).platform = s.platform := by cases s; rfl
@[simp] theorem deliver_host (v : Word) (s : State) : (deliver v s).host = s.host := by cases s; rfl
@[simp] theorem deliver_reads (v : Word) (s : State) : (deliver v s).reads = v :: s.reads := by cases s; rfl
@[simp] theorem deliver_draws (v : Word) (s : State) : (deliver v s).draws = s.draws := by cases s; rfl

/-! ### `deliverFree` -/

@[simp] theorem deliverFree_hash (s : State) : (deliverFree s).hash = s.hash := by cases s; rfl
@[simp] theorem deliverFree_held (s : State) : (deliverFree s).held = s.held := by cases s; rfl
@[simp] theorem deliverFree_status (s : State) : (deliverFree s).status = s.status := by cases s; rfl
@[simp] theorem deliverFree_operands (s : State) : (deliverFree s).operands = s.operands := by cases s; rfl
@[simp] theorem deliverFree_seq (s : State) : (deliverFree s).seq = s.seq := by cases s; rfl
@[simp] theorem deliverFree_mem (s : State) : (deliverFree s).mem = s.mem := by cases s; rfl
@[simp] theorem deliverFree_platform (s : State) : (deliverFree s).platform = s.platform := by cases s; rfl
@[simp] theorem deliverFree_host (s : State) : (deliverFree s).host = s.host := by cases s; rfl
@[simp] theorem deliverFree_reads (s : State) :
    (deliverFree s).reads = Config.freeWord s.draws :: s.reads := by cases s; rfl
@[simp] theorem deliverFree_draws (s : State) : (deliverFree s).draws = s.draws + 1 := by cases s; rfl

/-! ### `placeCommand` -/

@[simp] theorem placeCommand_hash (c : Word) (s : State) : (placeCommand c s).hash = s.hash := by cases s; rfl
@[simp] theorem placeCommand_held (c : Word) (s : State) : (placeCommand c s).held = s.held := by cases s; rfl
@[simp] theorem placeCommand_status (c : Word) (s : State) : (placeCommand c s).status = s.status := by cases s; rfl
@[simp] theorem placeCommand_operands (c : Word) (s : State) :
    (placeCommand c s).operands = s.operands := by cases s; rfl
@[simp] theorem placeCommand_seq (c : Word) (s : State) : (placeCommand c s).seq = s.seq := by cases s; rfl
@[simp] theorem placeCommand_mem (c : Word) (s : State) : (placeCommand c s).mem = s.mem := by cases s; rfl
@[simp] theorem placeCommand_platform (c : Word) (s : State) :
    (placeCommand c s).platform = s.platform := by cases s; rfl
@[simp] theorem placeCommand_host (c : Word) (s : State) :
    (placeCommand c s).host = .wr 0x000 c :: s.host := by cases s; rfl
@[simp] theorem placeCommand_reads (c : Word) (s : State) : (placeCommand c s).reads = s.reads := by cases s; rfl
@[simp] theorem placeCommand_draws (c : Word) (s : State) : (placeCommand c s).draws = s.draws := by cases s; rfl

/-! ### `HashState.loadBlk` -/

@[simp] theorem HashState.loadBlk_k (b : Vector Byte 64) (h : HashState) : (h.loadBlk b).k = h.k := by cases h; rfl
@[simp] theorem HashState.loadBlk_data (b : Vector Byte 64) (h : HashState) :
    (h.loadBlk b).data = bytesToWordsBE b := by cases h; rfl
@[simp] theorem HashState.loadBlk_ws (b : Vector Byte 64) (h : HashState) : (h.loadBlk b).ws = h.ws := by cases h; rfl
@[simp] theorem HashState.loadBlk_whash (b : Vector Byte 64) (h : HashState) :
    (h.loadBlk b).whash = h.whash := by cases h; rfl
@[simp] theorem HashState.loadBlk_whashCopy (b : Vector Byte 64) (h : HashState) :
    (h.loadBlk b).whashCopy = h.whashCopy := by cases h; rfl
@[simp] theorem HashState.loadBlk_counter (b : Vector Byte 64) (h : HashState) :
    (h.loadBlk b).counter = h.counter := by cases h; rfl

/-! ### `HashState.sched1` -/

@[simp] theorem HashState.sched1_k (t : Fin 16) (h : HashState) : (h.sched1 t).k = h.k := by cases h; rfl
@[simp] theorem HashState.sched1_data (t : Fin 16) (h : HashState) : (h.sched1 t).data = h.data := by cases h; rfl
@[simp] theorem HashState.sched1_ws (t : Fin 16) (h : HashState) :
    (h.sched1 t).ws = h.ws.set t h.data[t] := by cases h; rfl
@[simp] theorem HashState.sched1_whash (t : Fin 16) (h : HashState) : (h.sched1 t).whash = h.whash := by cases h; rfl
@[simp] theorem HashState.sched1_whashCopy (t : Fin 16) (h : HashState) :
    (h.sched1 t).whashCopy = h.whashCopy := by cases h; rfl
@[simp] theorem HashState.sched1_counter (t : Fin 16) (h : HashState) :
    (h.sched1 t).counter = h.counter := by cases h; rfl

/-! ### `HashState.sched2` -/

@[simp] theorem HashState.sched2_k (t : Fin 64) (h : HashState) : (h.sched2 t).k = h.k := by cases h; rfl
@[simp] theorem HashState.sched2_data (t : Fin 64) (h : HashState) : (h.sched2 t).data = h.data := by cases h; rfl
@[simp] theorem HashState.sched2_ws (t : Fin 64) (h : HashState) :
    (h.sched2 t).ws = h.ws.set t (scheduleTerm h.ws t) := by cases h; rfl
@[simp] theorem HashState.sched2_whash (t : Fin 64) (h : HashState) : (h.sched2 t).whash = h.whash := by cases h; rfl
@[simp] theorem HashState.sched2_whashCopy (t : Fin 64) (h : HashState) :
    (h.sched2 t).whashCopy = h.whashCopy := by cases h; rfl
@[simp] theorem HashState.sched2_counter (t : Fin 64) (h : HashState) :
    (h.sched2 t).counter = h.counter := by cases h; rfl

/-! ### `HashState.copy` -/

@[simp] theorem HashState.copy_k (h : HashState) : (h.copy).k = h.k := by cases h; rfl
@[simp] theorem HashState.copy_data (h : HashState) : (h.copy).data = h.data := by cases h; rfl
@[simp] theorem HashState.copy_ws (h : HashState) : (h.copy).ws = h.ws := by cases h; rfl
@[simp] theorem HashState.copy_whash (h : HashState) : (h.copy).whash = h.whash := by cases h; rfl
@[simp] theorem HashState.copy_whashCopy (h : HashState) : (h.copy).whashCopy = h.whash := by cases h; rfl
@[simp] theorem HashState.copy_counter (h : HashState) : (h.copy).counter = h.counter := by cases h; rfl

/-! ### `HashState.round` -/

@[simp] theorem HashState.round_k (t : Fin 64) (h : HashState) : (h.round t).k = h.k := by cases h; rfl
@[simp] theorem HashState.round_data (t : Fin 64) (h : HashState) : (h.round t).data = h.data := by cases h; rfl
@[simp] theorem HashState.round_ws (t : Fin 64) (h : HashState) : (h.round t).ws = h.ws := by cases h; rfl
@[simp] theorem HashState.round_whash (t : Fin 64) (h : HashState) : (h.round t).whash = h.whash := by cases h; rfl
@[simp] theorem HashState.round_whashCopy (t : Fin 64) (h : HashState) :
    (h.round t).whashCopy = roundVector h.k[t] h.ws[t] h.whashCopy := by cases h; rfl
@[simp] theorem HashState.round_counter (t : Fin 64) (h : HashState) :
    (h.round t).counter = h.counter := by cases h; rfl

/-! ### `HashState.feedFwd` -/

@[simp] theorem HashState.feedFwd_k (h : HashState) : (h.feedFwd).k = h.k := by cases h; rfl
@[simp] theorem HashState.feedFwd_data (h : HashState) : (h.feedFwd).data = h.data := by cases h; rfl
@[simp] theorem HashState.feedFwd_ws (h : HashState) : (h.feedFwd).ws = h.ws := by cases h; rfl
@[simp] theorem HashState.feedFwd_whash (h : HashState) :
    (h.feedFwd).whash = Vector.zipWith (· + ·) h.whash h.whashCopy := by cases h; rfl
@[simp] theorem HashState.feedFwd_whashCopy (h : HashState) : (h.feedFwd).whashCopy = h.whashCopy := by cases h; rfl
@[simp] theorem HashState.feedFwd_counter (h : HashState) : (h.feedFwd).counter = h.counter := by cases h; rfl

/-! ### `HashState.count` -/

@[simp] theorem HashState.count_k (h : HashState) : (h.count).k = h.k := by cases h; rfl
@[simp] theorem HashState.count_data (h : HashState) : (h.count).data = h.data := by cases h; rfl
@[simp] theorem HashState.count_ws (h : HashState) : (h.count).ws = h.ws := by cases h; rfl
@[simp] theorem HashState.count_whash (h : HashState) : (h.count).whash = h.whash := by cases h; rfl
@[simp] theorem HashState.count_whashCopy (h : HashState) : (h.count).whashCopy = h.whashCopy := by cases h; rfl
@[simp] theorem HashState.count_counter (h : HashState) : (h.count).counter = h.counter + 1 := by cases h; rfl

/-! ### `HashState.load` -/

@[simp] theorem HashState.load_k (h : HashState) : (h.load).k = K := by cases h; rfl
@[simp] theorem HashState.load_data (h : HashState) : (h.load).data = h.data := by cases h; rfl
@[simp] theorem HashState.load_ws (h : HashState) : (h.load).ws = h.ws := by cases h; rfl
@[simp] theorem HashState.load_whash (h : HashState) : (h.load).whash = H0 := by cases h; rfl
@[simp] theorem HashState.load_whashCopy (h : HashState) : (h.load).whashCopy = h.whashCopy := by cases h; rfl
@[simp] theorem HashState.load_counter (h : HashState) : (h.load).counter = 0 := by cases h; rfl

/-! ### `Held` -/

@[simp] theorem Held.afterAbsorb_k (f : Held) : f.afterAbsorb.k = f.k := by cases f; rfl
@[simp] theorem Held.afterAbsorb_data (f : Held) : f.afterAbsorb.data = true := by cases f; rfl
@[simp] theorem Held.afterAbsorb_ws (f : Held) : f.afterAbsorb.ws = true := by cases f; rfl
@[simp] theorem Held.afterAbsorb_whash (f : Held) : f.afterAbsorb.whash = true := by cases f; rfl
@[simp] theorem Held.afterAbsorb_whashCopy (f : Held) : f.afterAbsorb.whashCopy = true := by cases f; rfl
@[simp] theorem Held.afterAbsorb_counter (f : Held) : f.afterAbsorb.counter = true := by cases f; rfl
@[simp] theorem Held.afterInit_k (f : Held) : f.afterInit.k = true := by cases f; rfl
@[simp] theorem Held.afterInit_data (f : Held) : f.afterInit.data = f.data := by cases f; rfl
@[simp] theorem Held.afterInit_ws (f : Held) : f.afterInit.ws = f.ws := by cases f; rfl
@[simp] theorem Held.afterInit_whash (f : Held) : f.afterInit.whash = true := by cases f; rfl
@[simp] theorem Held.afterInit_whashCopy (f : Held) : f.afterInit.whashCopy = f.whashCopy := by cases f; rfl
@[simp] theorem Held.afterInit_counter (f : Held) : f.afterInit.counter = true := by cases f; rfl

/-! ### `raiseFault` (R212) -/

@[simp] theorem raiseFault_hash (c : FaultCode) (s : State) : (raiseFault c s).hash = s.hash := by
  unfold raiseFault; split <;> rfl
@[simp] theorem raiseFault_held (c : FaultCode) (s : State) : (raiseFault c s).held = s.held := by
  unfold raiseFault; split <;> rfl
@[simp] theorem raiseFault_operands (c : FaultCode) (s : State) : (raiseFault c s).operands = s.operands := by
  unfold raiseFault; split <;> rfl
@[simp] theorem raiseFault_mem (c : FaultCode) (s : State) : (raiseFault c s).mem = s.mem := by
  unfold raiseFault; split <;> rfl
@[simp] theorem raiseFault_platform (c : FaultCode) (s : State) : (raiseFault c s).platform = s.platform := by
  unfold raiseFault; split <;> rfl
@[simp] theorem raiseFault_host (c : FaultCode) (s : State) : (raiseFault c s).host = s.host := by
  unfold raiseFault; split <;> rfl
@[simp] theorem raiseFault_reads (c : FaultCode) (s : State) : (raiseFault c s).reads = s.reads := by
  unfold raiseFault; split <;> rfl
@[simp] theorem raiseFault_draws (c : FaultCode) (s : State) : (raiseFault c s).draws = s.draws := by
  unfold raiseFault; split <;> rfl
@[simp] theorem raiseFault_seq (c : FaultCode) (s : State) : (raiseFault c s).seq = Seq.idle := by cases s; rfl
theorem raiseFault_status (c : FaultCode) (s : State) :
    (raiseFault c s).status = if s.status.fault then s.status else { s.status with err := c, fault := true } := by
  unfold raiseFault; split <;> rfl

/-- After a refusal FAULT is 1, whether this refusal set it or an earlier one (R222). -/
@[simp] theorem raiseFault_fault (c : FaultCode) (s : State) : (raiseFault c s).status.fault = true := by
  rw [raiseFault_status]; split <;> simp_all
@[simp] theorem raiseFault_initDone (c : FaultCode) (s : State) :
    (raiseFault c s).status.initDone = s.status.initDone := by
  rw [raiseFault_status]; split <;> rfl
@[simp] theorem raiseFault_final (c : FaultCode) (s : State) : (raiseFault c s).status.final = s.status.final := by
  rw [raiseFault_status]; split <;> rfl
theorem raiseFault_err (c : FaultCode) (s : State) :
    (raiseFault c s).status.err = if s.status.fault then s.status.err else c := by
  rw [raiseFault_status]; split <;> rfl

end Sys2Proof.Machine
end

