-- ==== Sys2Proof/Laws/Compression.lean ====
section
/-! SUPPORT. What the loops of the scheduler and of the rounds leave alone, and what one absorption does to each field
of the hash state (R130, R140, R145, R157). -/

namespace Sys2Proof.Machine

/-! ### The loops -/

theorem HashState.schedPhase1_eq (h : HashState) :
    h.schedPhase1 = Nat.fold 16 (fun t ht h => HashState.sched1 ⟨t, ht⟩ h) h := by
  unfold HashState.schedPhase1; rfl

theorem HashState.schedPhase2_eq (h : HashState) :
    h.schedPhase2 = Nat.fold 48 (fun u hu h => HashState.sched2 ⟨16 + u, by omega⟩ h) h := by
  unfold HashState.schedPhase2; rfl

theorem HashState.rounds_eq (h : HashState) :
    h.rounds = Nat.fold 64 (fun t ht h => HashState.round ⟨t, ht⟩ h) h := by
  unfold HashState.rounds; rfl

/-- The schedule changes `ws` only (R130). -/
theorem HashState.sched_frame (h : HashState) : h.sched = { h with ws := h.sched.ws } := by
  have frame : ∀ g : HashState, (g.k = h.k ∧ g.data = h.data ∧ g.whash = h.whash ∧ g.whashCopy = h.whashCopy ∧
      g.counter = h.counter) → g = { h with ws := g.ws } := by
    rintro ⟨_, _, _, _, _, _⟩ ⟨rfl, rfl, rfl, rfl, rfl⟩
    rfl
  apply frame
  unfold HashState.sched
  rw [HashState.schedPhase2_eq, HashState.schedPhase1_eq]
  refine fold_induction (fun g : HashState => g.k = h.k ∧ g.data = h.data ∧ g.whash = h.whash ∧
    g.whashCopy = h.whashCopy ∧ g.counter = h.counter) _ ?_ (fun _ _ g hg => by simpa using hg)
  exact fold_induction (fun g : HashState => g.k = h.k ∧ g.data = h.data ∧ g.whash = h.whash ∧
    g.whashCopy = h.whashCopy ∧ g.counter = h.counter) _ (by simp) (fun _ _ g hg => by simpa using hg)

/-- The rounds change `whash_copy` only (R140, R145). -/
theorem HashState.rounds_frame (h : HashState) : h.rounds = { h with whashCopy := h.rounds.whashCopy } := by
  have frame : ∀ g : HashState, (g.k = h.k ∧ g.data = h.data ∧ g.ws = h.ws ∧ g.whash = h.whash ∧
      g.counter = h.counter) → g = { h with whashCopy := g.whashCopy } := by
    rintro ⟨_, _, _, _, _, _⟩ ⟨rfl, rfl, rfl, rfl, rfl⟩
    rfl
  apply frame
  rw [HashState.rounds_eq]
  exact fold_induction (fun g : HashState => g.k = h.k ∧ g.data = h.data ∧ g.ws = h.ws ∧ g.whash = h.whash ∧
    g.counter = h.counter) _ (by simp) (fun _ _ g hg => by simpa using hg)

@[simp] theorem HashState.sched_k (h : HashState) : h.sched.k = h.k := by rw [HashState.sched_frame]
@[simp] theorem HashState.sched_data (h : HashState) : h.sched.data = h.data := by rw [HashState.sched_frame]
@[simp] theorem HashState.sched_whash (h : HashState) : h.sched.whash = h.whash := by rw [HashState.sched_frame]
@[simp] theorem HashState.sched_whashCopy (h : HashState) : h.sched.whashCopy = h.whashCopy := by
  rw [HashState.sched_frame]
@[simp] theorem HashState.sched_counter (h : HashState) : h.sched.counter = h.counter := by
  rw [HashState.sched_frame]

@[simp] theorem HashState.rounds_k (h : HashState) : h.rounds.k = h.k := by rw [HashState.rounds_frame]
@[simp] theorem HashState.rounds_data (h : HashState) : h.rounds.data = h.data := by rw [HashState.rounds_frame]
@[simp] theorem HashState.rounds_ws (h : HashState) : h.rounds.ws = h.ws := by rw [HashState.rounds_frame]
@[simp] theorem HashState.rounds_whash (h : HashState) : h.rounds.whash = h.whash := by rw [HashState.rounds_frame]
@[simp] theorem HashState.rounds_counter (h : HashState) : h.rounds.counter = h.counter := by
  rw [HashState.rounds_frame]

@[simp] theorem HashState.compress_k (h : HashState) : h.compress.k = h.k := by simp [HashState.compress]
@[simp] theorem HashState.compress_data (h : HashState) : h.compress.data = h.data := by simp [HashState.compress]
@[simp] theorem HashState.compress_ws (h : HashState) : h.compress.ws = h.ws := by simp [HashState.compress]
@[simp] theorem HashState.compress_counter (h : HashState) : h.compress.counter = h.counter := by
  simp [HashState.compress]

/-! ### One absorption (R157) -/

theorem HashState.absorb_eq (b : Vector Byte 64) (h : HashState) :
    h.absorb b = (h.loadBlk b).sched.compress.count := by
  unfold HashState.absorb; rfl

@[simp] theorem HashState.absorb_k (b : Vector Byte 64) (h : HashState) : (h.absorb b).k = h.k := by
  simp [HashState.absorb_eq]
@[simp] theorem HashState.absorb_data (b : Vector Byte 64) (h : HashState) :
    (h.absorb b).data = bytesToWordsBE b := by
  simp [HashState.absorb_eq]
@[simp] theorem HashState.absorb_counter (b : Vector Byte 64) (h : HashState) :
    (h.absorb b).counter = h.counter + 1 := by
  simp [HashState.absorb_eq]
theorem HashState.absorb_ws (b : Vector Byte 64) (h : HashState) : (h.absorb b).ws = (h.loadBlk b).sched.ws := by
  simp [HashState.absorb_eq]

/-! ### Many absorptions (R159) -/

/-- The hash state after the `n` blocks of MEM at `src + 64*i`, in order (R159). -/
@[irreducible] def absorbedFrom (m : Memory) (src n : Nat) (h : HashState) : HashState :=
  Nat.fold n (fun i _ h => h.absorb (memRead m (src + 64 * i) 64)) h

theorem absorbedFrom_eq (m : Memory) (src n : Nat) (h : HashState) :
    absorbedFrom m src n h = Nat.fold n (fun i _ h => h.absorb (memRead m (src + 64 * i) 64)) h := by
  unfold absorbedFrom; rfl

@[simp] theorem absorbedFrom_zero (m : Memory) (src : Nat) (h : HashState) : absorbedFrom m src 0 h = h := by
  simp [absorbedFrom]

theorem absorbedFrom_succ (m : Memory) (src n : Nat) (h : HashState) :
    absorbedFrom m src (n + 1) h = (absorbedFrom m src n h).absorb (memRead m (src + 64 * n) 64) := by
  simp [absorbedFrom, Nat.fold_succ]

/-- The first `n1` blocks and then the `n2` that follow (R161). -/
theorem absorbedFrom_add (m : Memory) (src n1 n2 : Nat) (h : HashState) :
    absorbedFrom m src (n1 + n2) h = absorbedFrom m (src + 64 * n1) n2 (absorbedFrom m src n1 h) := by
  induction n2 with
  | zero => rw [Nat.add_zero, absorbedFrom_zero]
  | succ n2 ih =>
    rw [← Nat.add_assoc, absorbedFrom_succ, absorbedFrom_succ, ih, Nat.mul_add, ← Nat.add_assoc]

/-- Absorption of blocks keeps what one absorption keeps. -/
theorem absorbedFrom_induction {P : HashState → Prop} (m : Memory) (src n : Nat) {h : HashState} (h0 : P h)
    (hs : ∀ i, i < n → ∀ g, P g → P (g.absorb (memRead m (src + 64 * i) 64))) : P (absorbedFrom m src n h) := by
  rw [absorbedFrom_eq]
  exact fold_induction P _ h0 fun i hi g hg => hs i hi g hg

/-- Only the bytes of the blocks are read (R52). -/
theorem absorbedFrom_congr {m m' : Memory} {src n : Nat}
    (hm : ∀ a, src ≤ a → a < src + 64 * n → Memory.read m a = Memory.read m' a) (h : HashState) :
    absorbedFrom m src n h = absorbedFrom m' src n h := by
  induction n with
  | zero => rw [absorbedFrom_zero, absorbedFrom_zero]
  | succ n ih =>
    rw [absorbedFrom_succ, absorbedFrom_succ, ih fun a h1 h2 => hm a h1 (by omega)]
    rw [memRead_congr fun j hj => hm _ (by omega) (by omega)]

@[simp] theorem absorbedFrom_k (m : Memory) (src n : Nat) (h : HashState) : (absorbedFrom m src n h).k = h.k :=
  absorbedFrom_induction (P := fun g => g.k = h.k) m src n rfl fun _ _ g hg => by rw [HashState.absorb_k, hg]

/-- `n` absorptions add `n` to the counter (R160). -/
@[simp] theorem absorbedFrom_counter (m : Memory) (src n : Nat) (h : HashState) :
    (absorbedFrom m src n h).counter = h.counter + BitVec.ofNat 32 n := by
  induction n with
  | zero => simp
  | succ n ih =>
    rw [absorbedFrom_succ, HashState.absorb_counter, ih, BitVec.add_assoc]
    congr 1
    simp [BitVec.ofNat_add]

theorem absorbBlocks_zero (src : Nat) (s : State) : absorbBlocks src 0 s = s := by
  simp [absorbBlocks]

theorem absorbBlocks_succ (src n : Nat) (s : State) :
    absorbBlocks src (n + 1) s =
      absorb (memRead (absorbBlocks src n s).mem (src + 64 * n) 64) (absorbBlocks src n s) := by
  simp [absorbBlocks, Nat.fold_succ]

/-- What absorbing `n` blocks does to the whole state: the hash state takes the blocks in order, the written fields hold
a value if there was a block, and the rest stays. -/
theorem absorbBlocks_spec (src n : Nat) (s : State) :
    absorbBlocks src n s = { s with
      hash := absorbedFrom s.mem src n s.hash
      held := if n = 0 then s.held else s.held.afterAbsorb } := by
  induction n with
  | zero => rw [absorbBlocks_zero, absorbedFrom_zero]; rfl
  | succ n ih =>
    rw [absorbBlocks_succ, ih, absorbedFrom_succ]
    unfold absorb
    by_cases hn : n = 0 <;> simp [hn, Held.afterAbsorb]

end Sys2Proof.Machine
end

