-- ==== Sys2Proof/Laws/Commands.lean ====
section
/-! SUPPORT. What the shared operations of a command can do: the checks, the two ways a command ends, the finalization
shared by UPDATE_LAST and HASH (R178, R195, R212, R214). -/

namespace Sys2Proof.Machine

/-! ### Checks (R214) -/

@[simp] theorem firstFailing_nil : firstFailing [] = .accepted := rfl

theorem firstFailing_cons (b : Bool) (v : Verdict) (rest : List Check) :
    firstFailing ((b, v) :: rest) = if b then firstFailing rest else v := rfl

/-- A command with a last check that fails with a code: accepted exactly when every check passes. -/
theorem firstFailing_eq_accepted {l : List Check} (hl : ∀ c ∈ l, c.2 ≠ .accepted) :
    firstFailing l = .accepted ↔ ∀ c ∈ l, c.1 = true := by
  induction l with
  | nil => simp
  | cons c l ih =>
    obtain ⟨b, v⟩ := c
    rw [firstFailing_cons]
    cases b with
    | true => simpa using ih fun c hc => hl c (List.mem_cons_of_mem _ hc)
    | false => simpa using hl (false, v) List.mem_cons_self

/-- No check accepts. -/
theorem acceptanceChecks_refuse (i : Instr) (s : State) : ∀ c ∈ acceptanceChecks s i, c.2 ≠ .accepted := by
  cases i <;> simp [acceptanceChecks, notFaulted, initialised, notFinal, counterRoom, lengthBelow,
    withinCounterReach, disjointRanges, admitted]

/-- A command is accepted exactly when all its checks pass (R214). -/
theorem verdict_accepted (i : Instr) (s : State) :
    verdict i s = .accepted ↔ ∀ c ∈ acceptanceChecks s i, c.1 = true :=
  firstFailing_eq_accepted (acceptanceChecks_refuse i s)

theorem verdict_init (s : State) : verdict .init s = .accepted := rfl

theorem verdict_update (s : State) : verdict .update s = .accepted ↔
    s.status.fault = false ∧ s.status.initDone = true ∧ s.status.final = false ∧
      s.hash.counter.toNat < 2 ^ 32 - 1 ∧ admits s.platform s.src 64 .read = true := by
  simp [verdict_accepted, acceptanceChecks, notFaulted, initialised, notFinal, counterRoom, admitted]

theorem verdict_updateMulti (s : State) : verdict .updateMulti s = .accepted ↔
    s.status.fault = false ∧ s.status.initDone = true ∧ s.status.final = false ∧
      s.hash.counter.toNat < 2 ^ 32 - s.len ∧ admits s.platform s.src (64 * s.len) .read = true := by
  simp [verdict_accepted, acceptanceChecks, notFaulted, initialised, notFinal, counterRoom, admitted]

theorem verdict_updateLast (s : State) : verdict .updateLast s = .accepted ↔
    s.status.fault = false ∧ s.status.initDone = true ∧ s.status.final = false ∧
      s.len < 64 ∧ 64 * s.hash.counter.toNat + s.len < 2 ^ 61 ∧
      s.hash.counter.toNat < 2 ^ 32 - padBlocks s.len ∧ admits s.platform s.src s.len .read = true := by
  simp [verdict_accepted, acceptanceChecks, notFaulted, initialised, notFinal, counterRoom, lengthBelow, admitted]

theorem verdict_finish (s : State) : verdict .finish s = .accepted ↔
    s.status.fault = false ∧ s.status.initDone = true ∧ admits s.platform s.dst 32 .write = true := by
  simp [verdict_accepted, acceptanceChecks, notFaulted, initialised, admitted]

theorem verdict_hash (s : State) : verdict .hash s = .accepted ↔
    s.len < 2 ^ 61 ∧ s.len ≤ 2 ^ 38 - 73 ∧ rangesOverlap s.src s.len s.dst = false ∧
      admits s.platform s.src s.len .read = true ∧ admits s.platform s.dst 32 .write = true := by
  rw [show 2 ^ 38 - 73 = hashLimit from rfl]
  simp [verdict_accepted, acceptanceChecks, lengthBelow, withinCounterReach, disjointRanges, admitted]

/-- The verdict looks at STATUS, the counter, the operand registers and the platform, and at nothing else (R214). -/
theorem verdict_congr {i : Instr} {s t : State} (hs : s.status = t.status) (hc : s.hash.counter = t.hash.counter)
    (ho : s.operands = t.operands) (hp : s.platform = t.platform) : verdict i s = verdict i t := by
  have src : s.src = t.src := by unfold State.src; rw [ho]
  have dst : s.dst = t.dst := by unfold State.dst; rw [ho]
  have len : s.len = t.len := by unfold State.len; rw [ho]
  cases i <;> simp only [verdict, acceptanceChecks, notFaulted, initialised, notFinal, counterRoom, lengthBelow,
    withinCounterReach, disjointRanges, admitted, src, dst, len, hs, hc, hp]

/-! ### The two ways a command ends (R212, R214) -/

/-- The effect of each command once it is accepted. -/
def effectOf : Instr → State → State
  | .init => initState
  | .update => updateState
  | .updateMulti => updateMultiState
  | .updateLast => updateLastState
  | .finish => finishState
  | .hash => hashState

/-- Every meaning is its verdict and its effect. -/
theorem exec_eq_conclude (i : Instr) (s : State) : exec i s = conclude (verdict i s) (effectOf i) s := by
  cases i <;> rfl

theorem exec_of_accepted {i : Instr} {s : State} (h : verdict i s = .accepted) :
    exec i s = .next (toIdle (effectOf i s)) := by
  rw [exec_eq_conclude, h]; rfl

/-- Everything a command can do: run to completion, or be refused. -/
theorem exec_cases {i : Instr} {s t : State} (h : exec i s = .next t) :
    verdict i s = .accepted ∧ t = toIdle (effectOf i s) ∨
      verdict i s = .refusedFaulted ∧ t = toIdle s ∨
      ∃ code, verdict i s = .refused code ∧ t = raiseFault code s := by
  rw [exec_eq_conclude] at h
  cases hv : verdict i s <;> rw [hv] at h <;> injection h with h
  · exact .inl ⟨rfl, h.symm⟩
  · exact .inr (.inl ⟨rfl, h.symm⟩)
  · exact .inr (.inr ⟨_, rfl, h.symm⟩)

/-- A refusal without a code happens only when FAULT is already 1 (R214, step 2). -/
theorem fault_of_refusedFaulted {i : Instr} {s : State} (h : verdict i s = .refusedFaulted) :
    s.status.fault = true := by
  cases i <;> simp only [verdict, acceptanceChecks, notFaulted, initialised, notFinal, counterRoom, lengthBelow,
    withinCounterReach, disjointRanges, admitted, firstFailing_cons, firstFailing_nil] at h <;>
    (repeat' split at h) <;> simp_all

/-- A refusal with a code has a code other than E_NONE (R211). -/
theorem code_of_refused {i : Instr} {s : State} {code : FaultCode} (h : verdict i s = .refused code) :
    code ≠ .eNone ∧ (i ≠ .hash → s.status.fault = false) := by
  cases i <;> simp only [verdict, acceptanceChecks, notFaulted, initialised, notFinal, counterRoom, lengthBelow,
    withinCounterReach, disjointRanges, admitted, firstFailing_cons, firstFailing_nil] at h <;>
    (repeat' split at h) <;> simp_all <;> subst h <;> simp

/-! ### What an accepted command leaves (R155, R158, R159, R178, R180, R195) -/

/-- The hash state after the padding blocks (R178). -/
@[irreducible] def finalizedFrom (m : Memory) (src len : Nat) (h : HashState) : HashState :=
  let p := padScratch (memRead m src len) h.counter
  if len < 56 then h.absorb (padBlock p 0) else (h.absorb (padBlock p 0)).absorb (padBlock p 1)

theorem finalizedFrom_eq (m : Memory) (src len : Nat) (h : HashState) :
    finalizedFrom m src len h =
      if len < 56 then h.absorb (padBlock (padScratch (memRead m src len) h.counter) 0)
      else (h.absorb (padBlock (padScratch (memRead m src len) h.counter) 0)).absorb
        (padBlock (padScratch (memRead m src len) h.counter) 1) := by
  unfold finalizedFrom; rfl

@[simp] theorem finalizedFrom_k (m : Memory) (src len : Nat) (h : HashState) :
    (finalizedFrom m src len h).k = h.k := by
  rw [finalizedFrom_eq]; split <;> simp only [HashState.absorb_k]

@[simp] theorem finalizedFrom_counter (m : Memory) (src len : Nat) (h : HashState) :
    (finalizedFrom m src len h).counter = h.counter + BitVec.ofNat 32 (padBlocks len) := by
  rw [finalizedFrom_eq]
  unfold padBlocks
  split
  · rw [HashState.absorb_counter]; rfl
  · rw [HashState.absorb_counter, HashState.absorb_counter, BitVec.add_assoc]; rfl

/-- Only the bytes of the remainder are read (R52). -/
theorem finalizedFrom_congr {m m' : Memory} {src len : Nat}
    (hm : ∀ a, src ≤ a → a < src + len → Memory.read m a = Memory.read m' a) (h : HashState) :
    finalizedFrom m src len h = finalizedFrom m' src len h := by
  rw [finalizedFrom_eq, finalizedFrom_eq, memRead_congr fun j hj => hm _ (by omega) (by omega)]

/-- The hash state each command leaves. -/
def hashAfter (s : State) : Instr → HashState
  | .init => s.hash.load
  | .update => s.hash.absorb (memRead s.mem s.src 64)
  | .updateMulti => absorbedFrom s.mem s.src s.len s.hash
  | .updateLast => finalizedFrom s.mem s.src s.len s.hash
  | .finish => s.hash
  | .hash =>
    finalizedFrom s.mem (s.src + 64 * (s.len / 64)) (s.len % 64)
      (absorbedFrom s.mem s.src (s.len / 64) s.hash.load)

/-- The fields that hold a value after each command. -/
def heldAfter (s : State) : Instr → Held
  | .init => s.held.afterInit
  | .update | .updateLast => s.held.afterAbsorb
  | .updateMulti => if s.len = 0 then s.held else s.held.afterAbsorb
  | .finish => s.held
  | .hash => ⟨true, true, true, true, true, true⟩

/-- STATUS after each command. -/
def statusAfter (s : State) : Instr → Status
  | .init => statusAfterInit
  | .update | .updateMulti | .finish => s.status
  | .updateLast => { s.status with final := true }
  | .hash => ⟨true, true, false, .eNone⟩

/-- MEM after each command: the digest of FINISH and of HASH is serialized from the `whash` they leave (R180). -/
def memAfter (s : State) (i : Instr) : Memory :=
  match i with
  | .init | .update | .updateMulti | .updateLast => s.mem
  | .finish | .hash => memWrite s.mem s.dst (wordsToBytesBE (hashAfter s i).whash)

/-- What the shared finalization does to the whole state (R178). -/
theorem absorbLast_spec (src len : Nat) (s : State) :
    absorbLast src len s = { s with
      hash := finalizedFrom s.mem src len s.hash
      held := s.held.afterAbsorb
      status := { s.status with final := true } } := by
  rw [finalizedFrom_eq]
  unfold absorbLast
  by_cases h : len < 56 <;> simp only [h, if_true, if_false, absorb, setFinal, Held.afterAbsorb]

/-- Everything an accepted command does: these four fields, and the rest stays (R214). -/
theorem effectOf_spec (i : Instr) (s : State) :
    effectOf i s = { s with
      hash := hashAfter s i
      held := heldAfter s i
      status := statusAfter s i
      mem := memAfter s i } := by
  cases i with
  | init => rfl
  | update => rfl
  | updateMulti =>
    show absorbBlocks s.src s.len s = _
    rw [absorbBlocks_spec]; rfl
  | updateLast =>
    show absorbLast s.src s.len s = _
    rw [absorbLast_spec]; rfl
  | finish => rfl
  | hash =>
    show hashState s = _
    unfold hashState
    simp only [absorbLast_spec, absorbBlocks_spec, initState, storeDigest, statusAfterInit]
    congr 1
    show (if _ then _ else _ : Held).afterAbsorb = _
    split <;> rfl

@[simp] theorem effectOf_hash (i : Instr) (s : State) : (effectOf i s).hash = hashAfter s i := by rw [effectOf_spec]
@[simp] theorem effectOf_held (i : Instr) (s : State) : (effectOf i s).held = heldAfter s i := by rw [effectOf_spec]
@[simp] theorem effectOf_status (i : Instr) (s : State) : (effectOf i s).status = statusAfter s i := by rw [effectOf_spec]
@[simp] theorem effectOf_operands (i : Instr) (s : State) : (effectOf i s).operands = s.operands := by rw [effectOf_spec]
@[simp] theorem effectOf_seq (i : Instr) (s : State) : (effectOf i s).seq = s.seq := by rw [effectOf_spec]
@[simp] theorem effectOf_mem (i : Instr) (s : State) : (effectOf i s).mem = memAfter s i := by rw [effectOf_spec]
@[simp] theorem effectOf_platform (i : Instr) (s : State) : (effectOf i s).platform = s.platform := by rw [effectOf_spec]
@[simp] theorem effectOf_host (i : Instr) (s : State) : (effectOf i s).host = s.host := by rw [effectOf_spec]
@[simp] theorem effectOf_reads (i : Instr) (s : State) : (effectOf i s).reads = s.reads := by rw [effectOf_spec]
@[simp] theorem effectOf_draws (i : Instr) (s : State) : (effectOf i s).draws = s.draws := by rw [effectOf_spec]

/-- An accepted command ends in that state, the sequencer in IDLE. -/
theorem exec_accepted {i : Instr} {s : State} (h : verdict i s = .accepted) :
    exec i s = .next { s with
      hash := hashAfter s i
      held := heldAfter s i
      status := statusAfter s i
      mem := memAfter s i
      seq := Seq.idle } := by
  rw [exec_of_accepted h, effectOf_spec]; rfl

/-- STATUS after an accepted command: FAULT = 0, INIT_DONE = 1 (R30, R214). -/
theorem statusAfter_fault {i : Instr} {s : State} (h : verdict i s = .accepted) :
    (statusAfter s i).fault = false := by
  cases i
  · rfl
  · exact ((verdict_update s).mp h).1
  · exact ((verdict_updateMulti s).mp h).1
  · exact ((verdict_updateLast s).mp h).1
  · exact ((verdict_finish s).mp h).1
  · rfl

theorem statusAfter_initDone {i : Instr} {s : State} (h : verdict i s = .accepted) :
    (statusAfter s i).initDone = true := by
  cases i
  · rfl
  · exact ((verdict_update s).mp h).2.1
  · exact ((verdict_updateMulti s).mp h).2.1
  · exact ((verdict_updateLast s).mp h).2.1
  · exact ((verdict_finish s).mp h).2.1
  · rfl

/-- Only INIT and HASH are accepted before the first INIT (R36, R215). -/
theorem initDone_of_accepted {i : Instr} {s : State} (h : verdict i s = .accepted) (hi : i ≠ .init) (hh : i ≠ .hash) :
    s.status.initDone = true := by
  cases i
  · exact absurd rfl hi
  · exact ((verdict_update s).mp h).2.1
  · exact ((verdict_updateMulti s).mp h).2.1
  · exact ((verdict_updateLast s).mp h).2.1
  · exact ((verdict_finish s).mp h).2.1
  · exact absurd rfl hh

/-- What a command stores, it was admitted to store: the digest, inside the address space (R61, R180, R195). -/
theorem memAfter_cases {i : Instr} {s : State} (h : verdict i s = .accepted) :
    memAfter s i = s.mem ∧ i ≠ .finish ∧ i ≠ .hash ∨
      (i = .finish ∨ i = .hash) ∧ s.dst + 32 ≤ 2 ^ s.platform.aw ∧
        memAfter s i = memWrite s.mem s.dst (wordsToBytesBE (hashAfter s i).whash) := by
  have top : admits s.platform s.dst 32 .write = true → s.dst + 32 ≤ 2 ^ s.platform.aw := fun ha =>
    (admits_inside (by omega) ha).1
  cases i with
  | init | update | updateMulti | updateLast => exact .inl ⟨rfl, by simp, by simp⟩
  | finish => exact .inr ⟨.inl rfl, top ((verdict_finish s).mp h).2.2, rfl⟩
  | hash => exact .inr ⟨.inr rfl, top ((verdict_hash s).mp h).2.2.2.2, rfl⟩

end Sys2Proof.Machine
end

