-- ==== Sys2Proof/Laws/Operands.lean ====
section
/-! SUPPORT. Operand assembly, byte order, the padding scratch and the stored digest, each said once (R27, R54 to R56,
R83, R84, R175, R180). -/

namespace Sys2Proof.Machine

open Sys2Proof.Safety

/-! ### Operands (R83, R84) -/

theorem halves_append (v : BitVec 64) : (v.extractLsb' 32 32 ++ v.extractLsb' 0 32 : BitVec 64) = v := by
  apply BitVec.eq_of_getLsbD_eq
  intro i hi
  rw [BitVec.getLsbD_append]
  by_cases h : i < 32
  · simp [h]
  · simp only [h, if_false, BitVec.getLsbD_extractLsb', show 32 + (i - 32) = i by omega]
    simp; omega

@[simp] theorem src_withOperands (a b c : BitVec 64) (s : State) : (withOperands a b c s).src = a.toNat := by
  simp only [State.src, withOperands, halves_append]
@[simp] theorem dst_withOperands (a b c : BitVec 64) (s : State) : (withOperands a b c s).dst = b.toNat := by
  simp only [State.dst, withOperands, halves_append]
@[simp] theorem len_withOperands (a b c : BitVec 64) (s : State) : (withOperands a b c s).len = c.toNat := by
  simp only [State.len, withOperands, halves_append]

@[simp] theorem withOperands_hash (a b c : BitVec 64) (s : State) : (withOperands a b c s).hash = s.hash := by cases s; rfl
@[simp] theorem withOperands_held (a b c : BitVec 64) (s : State) : (withOperands a b c s).held = s.held := by cases s; rfl
@[simp] theorem withOperands_status (a b c : BitVec 64) (s : State) : (withOperands a b c s).status = s.status := by
  cases s; rfl
@[simp] theorem withOperands_mem (a b c : BitVec 64) (s : State) : (withOperands a b c s).mem = s.mem := by cases s; rfl
@[simp] theorem withOperands_platform (a b c : BitVec 64) (s : State) :
    (withOperands a b c s).platform = s.platform := by
  cases s; rfl

/-! ### Byte order (R54, R55) -/

theorem be32_toNat (a b c d : Byte) :
    (be32 a b c d).toNat = a.toNat * 2 ^ 24 + b.toNat * 2 ^ 16 + c.toNat * 2 ^ 8 + d.toNat := by
  have := a.isLt; have := b.isLt; have := c.isLt; have := d.isLt
  simp only [be32, BitVec.toNat_append]
  rw [← Nat.shiftLeft_add_eq_or_of_lt (by omega), ← Nat.shiftLeft_add_eq_or_of_lt (by omega),
    ← Nat.shiftLeft_add_eq_or_of_lt (by omega)]
  simp only [Nat.shiftLeft_eq]
  omega

theorem wordByte_toNat (w : Word) (j : Nat) : (wordByte w j).toNat = w.toNat / 2 ^ (24 - 8 * j) % 256 := by
  simp [wordByte, BitVec.extractLsb'_toNat, Nat.shiftRight_eq_div_pow]

/-- The byte at `dst + 4*i + j` after the digest is stored (R180). -/
theorem read_digest {m : Memory} (hm : m.wf = true) (dst : Nat) (w : Vector Word 8) {i j : Nat} (hi : i < 8)
    (hj : j < 4) :
    Memory.read (memWrite m dst (wordsToBytesBE w)) (dst + 4 * i + j) = wordByte w[i] j := by
  rw [show dst + 4 * i + j = dst + (4 * i + j) by omega,
    read_memWrite_inside hm dst (wordsToBytesBE w) (4 * i + j) (by omega)]
  simp only [wordsToBytesBE, Vector.getElem_ofFn]
  congr 1
  · congr 1; omega
  · omega

/-! ### The padding scratch (R175) -/

/-- Every byte of the scratch after steps 1 to 4. -/
theorem getElem_padScratch {len : Nat} (hl : len < 64) (d : Vector Byte len) (c : Word) (i : Nat) (hi : i < 128) :
    (padScratch d c)[i] =
      if h : i < len then d[i]
      else if i = len then 0x80
      else if h : paddedSize len - 8 ≤ i ∧ i < paddedSize len then
        (be64Bytes (lengthBits c len))[i - (paddedSize len - 8)]'(by omega)
      else 0 := by
  have hsz : len + 8 < paddedSize len ∧ paddedSize len ≤ 128 := by
    unfold paddedSize padBlocks; split <;> omega
  have unfolded : padScratch d c =
      Nat.fold 8 (fun j hj p => p.setIfInBounds (paddedSize len - 8 + j) (be64Bytes (lengthBits c len))[j])
        ((Nat.fold len (fun j hj p => p.setIfInBounds j d[j]) (Vector.replicate 128 0)).setIfInBounds len 0x80) := by
    unfold padScratch; rfl
  rw [unfolded]
  have copied := fold_index_induction
    (fun n (p : Vector Byte 128) => ∀ i (hi : i < 128), p[i] = if h : i < n ∧ i < len then d[i]'(h.2) else 0)
    (n := len) (fun j hj p => p.setIfInBounds j d[j]) (m := Vector.replicate 128 0)
    (fun i hi => by rw [Vector.getElem_replicate, dif_neg (by omega)])
    (fun j hj p ih i hi => by
      rw [Vector.getElem_setIfInBounds]
      by_cases e : j = i
      · subst e; simp [hj]
      · rw [if_neg e, ih i hi]
        by_cases h : i < j ∧ i < len
        · rw [dif_pos h, dif_pos (by omega)]
        · rw [dif_neg h, dif_neg (by omega)])
  generalize Nat.fold len (fun j hj p => p.setIfInBounds j d[j]) (Vector.replicate 128 0) = p1 at copied ⊢
  have field := fold_index_induction
    (fun n (p : Vector Byte 128) => ∀ i (hi : i < 128), p[i] =
      if h : paddedSize len - 8 ≤ i ∧ i < paddedSize len - 8 + n ∧ n ≤ 8 then
        (be64Bytes (lengthBits c len))[i - (paddedSize len - 8)]'(by omega)
      else (p1.setIfInBounds len 0x80)[i])
    (n := 8) (fun j hj p => p.setIfInBounds (paddedSize len - 8 + j) (be64Bytes (lengthBits c len))[j])
    (m := p1.setIfInBounds len 0x80)
    (fun i hi => by rw [dif_neg (by omega)])
    (fun j hj p ih i hi => by
      rw [Vector.getElem_setIfInBounds]
      by_cases e : paddedSize len - 8 + j = i
      · subst e; rw [if_pos rfl, dif_pos (by omega)]; congr 1; omega
      · rw [if_neg e, ih i hi]
        by_cases h : paddedSize len - 8 ≤ i ∧ i < paddedSize len - 8 + j ∧ j ≤ 8
        · rw [dif_pos h, dif_pos (by omega)]
        · rw [dif_neg h, dif_neg (by omega)])
  rw [field i hi]
  by_cases h1 : i < len
  · rw [dif_neg (by omega), dif_pos h1, Vector.getElem_setIfInBounds, if_neg (by omega), copied i hi, dif_pos ⟨h1, h1⟩]
  · rw [dif_neg h1]
    by_cases h2 : i = len
    · subst h2; rw [dif_neg (by omega), if_pos rfl, Vector.getElem_setIfInBounds, if_pos rfl]
    · rw [if_neg h2]
      by_cases h3 : paddedSize len - 8 ≤ i ∧ i < paddedSize len
      · rw [dif_pos h3, dif_pos (by omega)]
      · rw [dif_neg h3, dif_neg (by omega), Vector.getElem_setIfInBounds, if_neg (by omega), copied i hi,
          dif_neg (by omega)]

end Sys2Proof.Machine
end

