-- ==== Sys2Proof/Laws/PerInstr.lean ====
section
/-! SUPPORT. What holds of every command as syntax, one lemma per constructor (R82, R86, R92). -/

namespace Sys2Proof.Laws.RoundTrip

/-- The command is well formed, its word has zeros in bits 31:8, and the word decodes to the command. -/
def Statement (i : Instr) : Prop :=
  i.wellFormed = true ∧ zeroField (encode i) = 0 ∧ decode (encode i) = .ok i

theorem init : Statement .init := ⟨rfl, rfl, rfl⟩
theorem update : Statement .update := ⟨rfl, rfl, rfl⟩
theorem updateMulti : Statement .updateMulti := ⟨rfl, rfl, rfl⟩
theorem updateLast : Statement .updateLast := ⟨rfl, rfl, rfl⟩
theorem finish : Statement .finish := ⟨rfl, rfl, rfl⟩
theorem hash : Statement .hash := ⟨rfl, rfl, rfl⟩

end Sys2Proof.Laws.RoundTrip
end

