-- ==== Sys2Proof/Laws/Registers.lean ====
section
/-! SUPPORT. The register map, entry by entry (R29): later proofs rewrite a register number with these and do not unfold
the map. -/

namespace Sys2Proof.Machine

@[simp] theorem registerAt_0 : registerAt 0x000 = some .cmd := rfl
@[simp] theorem registerAt_1 : registerAt 0x001 = some .status := rfl
@[simp] theorem registerAt_2 : registerAt 0x002 = some .srcLo := rfl
@[simp] theorem registerAt_3 : registerAt 0x003 = some .srcHi := rfl
@[simp] theorem registerAt_4 : registerAt 0x004 = some .dstLo := rfl
@[simp] theorem registerAt_5 : registerAt 0x005 = some .dstHi := rfl
@[simp] theorem registerAt_6 : registerAt 0x006 = some .lenLo := rfl
@[simp] theorem registerAt_7 : registerAt 0x007 = some .lenHi := rfl
@[simp] theorem registerAt_counter : registerAt 0x1A0 = some .counter := rfl

/-- Above the reserved numbers the STATE window is what is left of the map. -/
theorem registerAt_window {n : Nat} (hn : 0x100 ≤ n) :
    registerAt n =
      if h : n - 0x100 < 64 then some (.k ⟨n - 0x100, h⟩)
      else if h : n - 0x140 < 16 then some (.data ⟨n - 0x140, h⟩)
      else if h : n - 0x150 < 64 then some (.ws ⟨n - 0x150, h⟩)
      else if h : n - 0x190 < 8 then some (.whash ⟨n - 0x190, h⟩)
      else if h : n - 0x198 < 8 then some (.whashCopy ⟨n - 0x198, h⟩)
      else if n = 0x1A0 then some .counter
      else none := by
  unfold registerAt
  iterate 9 rw [if_neg (by omega)]

theorem registerAt_low {n : Nat} (h8 : 0x008 ≤ n) (hn : n ≤ 0x0FF) : registerAt n = none := by
  unfold registerAt
  iterate 8 rw [if_neg (by omega)]
  rw [if_pos (by omega)]

theorem registerAt_high {n : Nat} (hn : 0x1A1 ≤ n) : registerAt n = none := by
  rw [registerAt_window (by omega)]
  iterate 5 rw [dif_neg (by omega)]
  rw [if_neg (by omega)]

@[simp] theorem registerAt_k {i : Nat} (h : i < 64) : registerAt (0x100 + i) = some (.k ⟨i, h⟩) := by
  rw [registerAt_window (by omega)]
  rw [dif_pos (by omega)]
  simp

@[simp] theorem registerAt_data {i : Nat} (h : i < 16) : registerAt (0x140 + i) = some (.data ⟨i, h⟩) := by
  rw [registerAt_window (by omega)]
  iterate 1 rw [dif_neg (by omega)]
  rw [dif_pos (by omega)]
  simp

@[simp] theorem registerAt_ws {i : Nat} (h : i < 64) : registerAt (0x150 + i) = some (.ws ⟨i, h⟩) := by
  rw [registerAt_window (by omega)]
  iterate 2 rw [dif_neg (by omega)]
  rw [dif_pos (by omega)]
  simp

@[simp] theorem registerAt_whash {i : Nat} (h : i < 8) : registerAt (0x190 + i) = some (.whash ⟨i, h⟩) := by
  rw [registerAt_window (by omega)]
  iterate 3 rw [dif_neg (by omega)]
  rw [dif_pos (by omega)]
  simp

@[simp] theorem registerAt_whashCopy {i : Nat} (h : i < 8) : registerAt (0x198 + i) = some (.whashCopy ⟨i, h⟩) := by
  rw [registerAt_window (by omega)]
  iterate 4 rw [dif_neg (by omega)]
  rw [dif_pos (by omega)]
  simp

/-! ### Bus addresses -/

/-- Everything a bus access can reach: register `n` by a 4-byte access at `REG_BASE + 4*n`, and nothing else (R29,
R34). -/
theorem busRegister_ok {p : Platform} {addr bytes n : Nat} :
    busRegister p addr bytes = .ok n ↔ bytes = 4 ∧ addr = p.regBase + 4 * n := by
  unfold busRegister
  constructor
  · intro h
    split at h
    · cases h
    · split at h
      · cases h
      · split at h
        · cases h
        · injection h with h
          omega
  · rintro ⟨rfl, rfl⟩
    rw [if_neg (by simp), if_neg (by omega), if_neg (by omega)]
    congr 1
    omega

end Sys2Proof.Machine
end

