-- ==== Sys2Proof/Laws/Sequencer.lean ====
section
/-! SUPPORT. Micro-steps in a row, where they stop, and what the first one does (R32, R162). -/

namespace Sys2Proof.Machine

@[simp] theorem microSteps_zero (r : Running) : microSteps 0 r = r := rfl

theorem microSteps_succ (n : Nat) (r : Running) : microSteps (n + 1) r = microSteps n (microStep r) := rfl

theorem microSteps_add (m n : Nat) (r : Running) : microSteps (m + n) r = microSteps n (microSteps m r) := by
  induction m generalizing r with
  | zero => rw [Nat.zero_add, microSteps_zero]
  | succ m ih => rw [Nat.succ_add, microSteps_succ, microSteps_succ, ih]

/-- In IDLE nothing more happens (R32). -/
theorem microStep_idle {r : Running} (h : r.eng.seq.phase = .idle) : microStep r = r := by
  unfold microStep
  simp only [h]

theorem microSteps_idle (n : Nat) {r : Running} (h : r.eng.seq.phase = .idle) : microSteps n r = r := by
  induction n with
  | zero => rw [microSteps_zero]
  | succ n ih => rw [microSteps_succ, microStep_idle h, ih]

/-- CHECK decides as `exec` does: the verdict is that of the state at the CMD write (R214). -/
theorem verdict_beginCommand (i : Instr) (s : State) : verdict i (beginCommand i s).eng = verdict i s :=
  verdict_congr rfl rfl rfl rfl

end Sys2Proof.Machine
end

