-- ==== Sys2Proof/Laws/Step.lean ====
section
/-! SUPPORT. Everything a step can do, said once: invariants follow from it by cases, without unfolding the step (R31,
R34, R240, R242). -/

namespace Sys2Proof.Machine

/-- What one host action does to a state when it ends in a next state. -/
inductive ActionEffect (a : HostAction) (s t : State) : Prop where
  /-- A write to CMD of a legal word. -/
  | command (c : Word) (i : Instr) (write : a = .wr 0 c ∨ a = .busWr s.platform.regBase 4 c)
      (decodes : decode c = .ok i) (runs : exec i s = .next t)
  /-- A write to CMD of an illegal word (R213). -/
  | illegal (effect : t = raiseFault .eIllegal s)
  /-- A write to another register (R34). -/
  | write (o : OperandRegs) (effect : t = { s with operands := o })
  /-- A read of an element that holds a value, or a load (R33, R50). -/
  | read (v : Word) (effect : t = deliver v s)
  /-- A read of an element that holds none (R33). -/
  | readFree (effect : t = deliverFree s)
  /-- A store to MEM (R50). -/
  | store (addr : Nat) (b : Byte) (inside : addr < 2 ^ s.platform.aw)
      (effect : t = { s with mem := Memory.write s.mem addr b })
  /-- A reset between commands (R240). -/
  | reset (action : a = .reset) (effect : t = engineReset s)
  /-- A reset during a command that would have left `done` (R242). -/
  | resetDuring (c : Word) (done : State) (action : a = .resetDuring c) (completes : commandWrite c s = .next done)
      (effect : t = engineReset { s with mem := tornDigest s.mem done.mem s.dst s.draws, draws := s.draws + 32 })
  /-- The platform admits something else from now on (R61). -/
  | setAdmit (grants : List Grant) (action : a = .setAdmit grants) (effect : t = setAdmit grants s)

theorem eq_some_of_ite {c : Prop} [Decidable c] {x r : RegName} {y : Option RegName} (hx : x ≠ r)
    (h : (if c then some x else y) = some r) : y = some r := by
  by_cases hc : c
  · rw [if_pos hc] at h
    exact absurd (Option.some.inj h) hx
  · rwa [if_neg hc] at h

theorem eq_some_of_dite {c : Prop} [Decidable c] {x : c → RegName} {r : RegName} {y : Option RegName}
    (hx : ∀ h, x h ≠ r) (h : (if h : c then some (x h) else y) = some r) : y = some r := by
  by_cases hc : c
  · rw [dif_pos hc] at h
    exact absurd (Option.some.inj h) (hx hc)
  · rwa [dif_neg hc] at h

/-- Register number 0 is CMD and no other number is (R29). -/
theorem registerAt_cmd {n : Nat} (h : registerAt n = some .cmd) : n = 0 := by
  by_contra hn
  rw [registerAt, if_neg hn] at h
  iterate 7 replace h := eq_some_of_ite (by decide) h
  by_cases hlow : n < 0x100
  · rw [if_pos hlow] at h
    cases h
  · rw [if_neg hlow] at h
    iterate 5 replace h := eq_some_of_dite (fun _ => by simp) h
    cases eq_some_of_ite (by decide) h

theorem registerWrite_effect {n : Nat} {v : Word} {a : HostAction} {s t : State}
    (ha : n = 0 → a = .wr 0 v ∨ a = .busWr s.platform.regBase 4 v) (h : registerWrite n v s = .next t) :
    ActionEffect a s t := by
  unfold registerWrite at h
  split at h
  · cases h
  · rename_i hr
    unfold commandWrite at h
    split at h
    · rename_i i hd
      exact .command v i (ha (registerAt_cmd hr)) hd h
    · injection h with h
      exact .illegal h.symm
  · injection h with h
    exact .write _ h.symm

theorem registerRead_effect {n : Nat} {a : HostAction} {s t : State} (h : registerRead n s = .next t) :
    ActionEffect a s t := by
  unfold registerRead at h
  split at h
  · cases h
  · split at h <;> injection h with h
    · exact .read _ h.symm
    · exact .readFree h.symm

/-- Everything one host action can do. -/
theorem perform_effect {a : HostAction} {s t : State} (h : perform a s = .next t) : ActionEffect a s t := by
  cases a with
  | wr n v => exact registerWrite_effect (fun hn => .inl (by rw [hn])) h
  | rd n => exact registerRead_effect h
  | busWr addr bytes v =>
    unfold perform at h
    simp only at h
    split at h
    · rename_i n hn
      refine registerWrite_effect (fun h0 => .inr ?_) h
      rw [h0] at hn
      rw [(busRegister_ok.mp hn).1, (busRegister_ok.mp hn).2, Nat.mul_zero, Nat.add_zero]
    · cases h
  | busRd addr bytes =>
    unfold perform at h
    simp only at h
    split at h
    · exact registerRead_effect h
    · cases h
  | store addr b =>
    unfold perform hostStore isMemAddress at h
    simp only [decide_eq_true_eq] at h
    split at h
    · injection h with h
      exact .store addr b (by assumption) h.symm
    · cases h
  | load addr =>
    unfold perform hostLoad at h
    simp only at h
    split at h
    · injection h with h
      exact .read _ h.symm
    · cases h
  | reset =>
    unfold perform at h
    injection h with h
    exact .reset rfl h.symm
  | resetDuring c =>
    unfold perform resetDuringCommand at h
    simp only at h
    split at h
    · rename_i done hd
      injection h with h
      exact .resetDuring c done rfl hd h.symm
    · cases h
    · cases h
  | setAdmit grants =>
    unfold perform at h
    injection h with h
    exact .setAdmit grants rfl h.symm

/-- Everything a step can do: nothing, when the host has no action, or the host's next action. -/
theorem step_cases {s t : State} (h : step s = .next t) :
    s.host = [] ∧ t = s ∨
      ∃ a rest, s.host = a :: rest ∧ ActionEffect a { s with host := rest } t := by
  unfold step nextAction at h
  split at h
  · injection h with h
    exact .inl ⟨by assumption, h.symm⟩
  · rename_i a rest hs
    exact .inr ⟨a, rest, hs, perform_effect h⟩

/-! ### Invariants -/

/-- A property that every accepted command, every refusal and every other host action keeps holds after every step. A
command that a reset catches is met as the command and then the torn MEM. -/
theorem step_keeps (P : State → Prop)
    (program : ∀ s l, P s → P { s with host := l })
    (command : ∀ i s, P s → verdict i s = .accepted → P (toIdle (effectOf i s)))
    (refusedFaulted : ∀ s, P s → P (toIdle s))
    (refused : ∀ code s, code ≠ FaultCode.eNone → P s → P (raiseFault code s))
    (operands : ∀ o s, P s → P { s with operands := o })
    (read : ∀ v s, P s → P (deliver v s))
    (readFree : ∀ s, P s → P (deliverFree s))
    (store : ∀ a b s, a < 2 ^ s.platform.aw → P s → P { s with mem := Memory.write s.mem a b })
    (reset : ∀ s, P s → P (engineReset s))
    (torn : ∀ c s t n, P s → commandWrite c s = .next t → P t →
      P { s with mem := tornDigest s.mem t.mem s.dst s.draws, draws := n })
    (admission : ∀ g s, P s → P (setAdmit g s)) :
    ∀ s t, P s → step s = .next t → P t := by
  have run : ∀ i s t, P s → exec i s = .next t → P t := by
    intro i s t hs r
    rcases exec_cases r with ⟨hv, rfl⟩ | ⟨hv, rfl⟩ | ⟨c, hv, rfl⟩
    · exact command _ _ hs hv
    · exact refusedFaulted _ hs
    · exact refused _ _ (code_of_refused hv).1 hs
  intro s t hs h
  rcases step_cases h with ⟨_, rfl⟩ | ⟨a, rest, hh, he⟩
  · exact hs
  have h0 := program s rest hs
  cases he with
  | command c i w d r => exact run _ _ _ h0 r
  | illegal e => subst e; exact refused _ _ (by simp) h0
  | write o e => subst e; exact operands _ _ h0
  | read v e => subst e; exact read _ _ h0
  | readFree e => subst e; exact readFree _ h0
  | store a b hl e => subst e; exact store _ _ _ hl h0
  | reset e e' => subst e'; exact reset _ h0
  | resetDuring c d e hc e' =>
    subst e'
    refine reset _ (torn c _ _ _ h0 hc ?_)
    unfold commandWrite at hc
    split at hc
    · exact run _ _ _ h0 hc
    · injection hc with hc
      subst hc
      exact refused _ _ (by simp) h0
  | setAdmit g e e' => subst e'; exact admission _ _ h0

end Sys2Proof.Machine
end

