-- ==== Sys2Proof/Tests/Slice0.lean ====
section
/-! SUPPORT. Tests of single steps against the vectors of spec/95_test_vectors.md (its section is named at each test), the
smoke tests of WellFormed, and for every statement with hypotheses a state and operands that meet them. -/

namespace Sys2Proof.Tests

-- One theorem after the other: evaluations that wait for one another would each hold a thread with a large stack.
set_option Elab.async false

open Sys2Proof Sys2Proof.Machine Sys2Proof.Safety

/-! ### Helpers -/

/-- The outcome is a next state with this property. -/
def nextWith (p : State → Bool) : Host.Outcome State Fault Refusal → Bool
  | .next t => p t
  | .fault _ => false
  | .refused _ => false

/-- The outcome is this stop. -/
def stopsWith (f : Option Fault) (r : Option Refusal) : Host.Outcome State Fault Refusal → Bool
  | .next _ => false
  | .fault g => f == some g
  | .refused q => r == some q

/-- The word STATUS reads as after a command, from operands as a host writes them. -/
def statusAfterCmd (i : Instr) (src dst len : BitVec 64) (s : State) : Option Word :=
  match exec i (withOperands src dst len s) with
  | .next t => some (statusWord t.status)
  | .fault _ => none
  | .refused _ => none

/-- A session after INIT with `c` blocks counted: what a test of a large counter starts from (spec/95 section 2.8). -/
def session (c : Word) : State :=
  { State.reset with
    hash := { HashState.reset.load with counter := c }
    held := Held.reset.afterInit
    status := statusAfterInit }

/-- A finished session: STATUS = 00000003. -/
def finished : State := { session 1 with status := ⟨true, true, false, .eNone⟩, held := ⟨true, true, true, true, true, true⟩ }

/-- After INIT and an illegal CMD write: STATUS = 00000105. -/
def faulted : State := { session 0 with status := ⟨true, false, true, .eIllegal⟩ }

/-- The state with these host actions to come. -/
def withHost (l : List HostAction) (s : State) : State := { s with host := l }

/-- The state with the bytes of `"abc"` at 0x1000. -/
def withAbc (s : State) : State := { s with mem := [(0x1000, 0x61), (0x1001, 0x62), (0x1002, 0x63)] }

/-- The `"abc"` digest (spec/95 section 1.1). -/
def abcDigest : List Byte :=
  [0xba, 0x78, 0x16, 0xbf, 0x8f, 0x01, 0xcf, 0xea, 0x41, 0x41, 0x40, 0xde, 0x5d, 0xae, 0x22, 0x23,
   0xb0, 0x03, 0x61, 0xa3, 0x96, 0x17, 0x7a, 0x9c, 0xb4, 0x10, 0xff, 0x61, 0xf2, 0x00, 0x15, 0xad]

/-- The padded block of `"abc"` (spec/95 section 3.1). -/
def abcBlock : Vector Byte 64 :=
  (((Vector.replicate 64 (0 : Byte)).set 0 0x61).set 1 0x62 |>.set 2 0x63 |>.set 3 0x80).set 63 0x18

/-! ### WellFormed: a command has no field that could be ill formed; each check of a platform refuses one -/

theorem test_wf_commands : ∀ i : Instr, i.wellFormed = true := by intro i; cases i <;> rfl
theorem test_wf_launch : launchPlatform.wellFormed = true := by decide
theorem test_wf_aw_0 : ({ launchPlatform with aw := 0 } : Platform).wellFormed = false := by decide
theorem test_wf_aw_65 : ({ launchPlatform with aw := 65 } : Platform).wellFormed = false := by decide
theorem test_wf_aw_bounds : ({ launchPlatform with aw := 1 } : Platform).awOk = true ∧ launchPlatform.aw = 64 := by
  decide
theorem test_wf_regBase : ({ launchPlatform with regBase := 2 } : Platform).wellFormed = false := by decide

/-! ### Decode: the words of spec/30_encoding.md R86, bit by bit: ZERO 31:8, OPCODE 7:0 -/

theorem test_decode_init : decode 0b00000000000000000000000000000001#32 = .ok .init := by decide
theorem test_decode_update : decode 0b00000000000000000000000000000010#32 = .ok .update := by decide
theorem test_decode_updateMulti : decode 0b00000000000000000000000000000011#32 = .ok .updateMulti := by decide
theorem test_decode_updateLast : decode 0b00000000000000000000000000000100#32 = .ok .updateLast := by decide
theorem test_decode_finish : decode 0b00000000000000000000000000000101#32 = .ok .finish := by decide
theorem test_decode_hash : decode 0b00000000000000000000000000000110#32 = .ok .hash := by decide
/-- spec/95 section 2.7. -/
theorem test_decode_illegal : decode 0x00000000#32 = .error .opcode ∧ decode 0x00000007#32 = .error .opcode ∧
    decode 0x00000101#32 = .error .zeroField ∧ decode 0x80000006#32 = .error .zeroField := by decide
theorem test_decodeTableWord : decodeTableWord 32 6 = some .hash ∧ decodeTableWord 32 0x106 = none ∧
    decodeTableWord 40 6 = none := by decide
/-- The placed command is the one the next step runs. -/
theorem test_withFetchWord : nextWith (fun t => statusWord t.status == 0x00000001#32)
    (step (State.reset.withFetchWord 32 1)) = true := by decide

/-! ### Round functions (spec/95 section 2.1) -/

theorem test_rotr : rotr 0x12345678#32 1 = 0x091a2b3c#32 ∧ rotr 0xdeadbeef#32 31 = 0xbd5b7ddf#32 := by decide
theorem test_bsig : bsig0 0x12345678#32 = 0x66146474#32 ∧ bsig1 0x12345678#32 = 0x3561abda#32 ∧
    bsig0 0x00000001#32 = 0x40080400#32 ∧ bsig1 0x80000000#32 = 0x02100040#32 := by decide
theorem test_ssig : ssig0 0x12345678#32 = 0xe7fce6ee#32 ∧ ssig1 0x12345678#32 = 0xa1f78649#32 ∧
    ssig0 0xffffffff#32 = 0x1fffffff#32 ∧ ssig1 0xffffffff#32 = 0x003fffff#32 := by decide
theorem test_ch_maj : ch 0xf0f0f0f0#32 0xffff0000#32 0x0000ffff#32 = 0xf0f00f0f#32 ∧
    maj 0x6a09e667#32 0xbb67ae85#32 0x3c6ef372#32 = 0x3a6fe667#32 := by decide

/-! ### Byte order (spec/95 section 2.5) -/

theorem test_bytesToWordsBE :
    bytesToWordsBE (n := 2) #v[0x01, 0x02, 0x03, 0x04, 0xfe, 0xdc, 0xba, 0x98] = #v[0x01020304#32, 0xfedcba98#32] := by
  decide +kernel
theorem test_be64Bytes : be64Bytes 2199023254968#64 = #v[0x00, 0x00, 0x01, 0xff, 0xff, 0xff, 0xfd, 0xb8] := by
  decide +kernel

/-! ### Scheduler, rounds, padding (spec/95 sections 2.3, 3 and 4) -/

theorem test_schedule_abc :
    let ws := (HashState.reset.load.absorb abcBlock).ws
    ws[15] = 0x00000018#32 ∧ ws[16] = 0x61626380#32 ∧ ws[17] = 0x000f0000#32 ∧ ws[18] = 0x7da86405#32 ∧
      ws[63] = 0x12b1edeb#32 := by
  decide +kernel
theorem test_round_0 :
    roundVector 0x428a2f98#32 0x80000000#32 H0 = #v[0x7c08884d#32, 0x6a09e667#32, 0xbb67ae85#32, 0x3c6ef372#32,
      0x18c7e2a2#32, 0x510e527f#32, 0x9b05688c#32, 0x1f83d9ab#32] := by
  decide +kernel
theorem test_feed_forward_abc : (HashState.reset.load.absorb abcBlock).whashCopy[0] = 0x506e3058#32 ∧
    (HashState.reset.load.absorb abcBlock).whash[0] = 0xba7816bf#32 := by
  decide +kernel
theorem test_pad_55 :
    let p := padScratch (Vector.ofFn fun j : Fin 55 => BitVec.ofNat 8 (j.val + 1)) 0
    p[54] = 0x37 ∧ p[55] = 0x80 ∧ p[56] = 0 ∧ p[62] = 0x01 ∧ p[63] = 0xb8 ∧ p[64] = 0 := by
  decide +kernel
theorem test_pad_56 :
    let p := padScratch (Vector.ofFn fun j : Fin 56 => BitVec.ofNat 8 (j.val + 1)) 0
    p[55] = 0x38 ∧ p[56] = 0x80 ∧ p[63] = 0 ∧ p[126] = 0x01 ∧ p[127] = 0xc0 := by
  decide +kernel

/-! ### The commands (spec/95 sections 2.4, 2.5, 2.8, 3, 4) -/

theorem test_init : nextWith (fun t => statusWord t.status == 0x00000001#32 && t.hash.whash[0] == 0x6a09e667#32 &&
    t.hash.counter == 0 && t.held == ⟨true, false, false, true, false, true⟩) (exec .init State.reset) = true := by
  decide +kernel
/-- F38. -/
theorem test_init_faulted : statusAfterCmd .init 0 0 0 faulted = some 0x00000001#32 := by decide +kernel

theorem test_update_zeros : nextWith (fun t => t.hash.whash[0] == 0xda5698be#32 && t.hash.whash[7] == 0x1837a9d8#32 &&
    t.hash.counter == 1 && statusWord t.status == 0x00000001#32)
    (exec .update (withOperands 0x1000 0 0 (session 0))) = true := by
  decide +kernel
/-- F1, F9, F13, F14, F33, F34. -/
theorem test_update_status : statusAfterCmd .update 0x1000 0 0 State.reset = some 0x00000204#32 ∧
    statusAfterCmd .update 0x1000 0 0 finished = some 0x00000307#32 ∧
    statusAfterCmd .update 0x1000 0 0 (session 0xfffffffe) = some 0x00000001#32 ∧
    statusAfterCmd .update 0x1000 0 0 (session 0xffffffff) = some 0x00000505#32 ∧
    statusAfterCmd .update 0xFFFFFFFFFFFFFFC0 0 0 (session 0) = some 0x00000001#32 ∧
    statusAfterCmd .update 0xFFFFFFFFFFFFFFC1 0 0 (session 0) = some 0x00000705#32 := by
  decide +kernel

theorem test_updateMulti_zeros : nextWith (fun t => t.hash.whash[0] == 0x68819422#32 && t.hash.counter == 2)
    (exec .updateMulti (withOperands 0x1000 0 2 (session 0))) = true := by
  decide +kernel
/-- F11, F15, F16, F17, F18, F19. -/
theorem test_updateMulti_status : statusAfterCmd .updateMulti 0x1000 0 0 finished = some 0x00000307#32 ∧
    statusAfterCmd .updateMulti 0x1000 0 0 (session 0xffffffff) = some 0x00000001#32 ∧
    statusAfterCmd .updateMulti 0x1000 0 1 (session 0xffffffff) = some 0x00000505#32 ∧
    statusAfterCmd .updateMulti 0x1000 0 0xFFFFFFFB (session 5) = some 0x00000505#32 ∧
    statusAfterCmd .updateMulti 0x1000 0 0x100000000 (session 0) = some 0x00000505#32 ∧
    statusAfterCmd .updateMulti 0x1000 0 0xFFFFFFFFFFFFFFFF (session 0) = some 0x00000505#32 := by
  decide +kernel

theorem test_updateLast_abc : nextWith (fun t => t.hash.whash[0] == 0xba7816bf#32 && t.hash.whash[7] == 0xf20015ad#32 &&
    t.hash.counter == 1 && statusWord t.status == 0x00000003#32)
    (exec .updateLast (withOperands 0x1000 0 3 (withAbc (session 0)))) = true := by
  decide +kernel
/-- F3, F6, F7, F10, F20, F21, F22, F35. -/
theorem test_updateLast_status : statusAfterCmd .updateLast 0x1000 0 100 State.reset = some 0x00000204#32 ∧
    statusAfterCmd .updateLast 0x1000 0 64 (session 0) = some 0x00000405#32 ∧
    statusAfterCmd .updateLast 0x1000 0 0x100000003 (session 0) = some 0x00000405#32 ∧
    statusAfterCmd .updateLast 0x1000 0 0 finished = some 0x00000307#32 ∧
    statusAfterCmd .updateLast 0x1000 0 55 (session 0xfffffffe) = some 0x00000003#32 ∧
    statusAfterCmd .updateLast 0x1000 0 56 (session 0xfffffffe) = some 0x00000505#32 ∧
    statusAfterCmd .updateLast 0x1000 0 63 (session 0xfffffffd) = some 0x00000003#32 ∧
    statusAfterCmd .updateLast 0x1000 0 64 faulted = some 0x00000105#32 := by
  decide +kernel

theorem test_finish_init : nextWith (fun t => bytesAt t.mem 0x2001 8 == [0x6a, 0x09, 0xe6, 0x67, 0xbb, 0x67, 0xae, 0x85] &&
    Memory.read t.mem 0x2020 == 0x19 && Memory.read t.mem 0x2021 == 0)
    (exec .finish (withOperands 0 0x2001 0 (session 0))) = true := by
  decide +kernel
/-- F2, F12, F32, F36. -/
theorem test_finish_status : statusAfterCmd .finish 0 0x2000 0 State.reset = some 0x00000204#32 ∧
    statusAfterCmd .finish 0 0x3000 0 finished = some 0x00000003#32 ∧
    statusAfterCmd .finish 0 0xFFFFFFFFFFFFFFF0 0 (session 0) = some 0x00000705#32 ∧
    statusAfterCmd .finish 0 0x2000 0 faulted = some 0x00000105#32 := by
  decide +kernel

theorem test_hash_abc : nextWith (fun t => bytesAt t.mem 0x2000 32 == abcDigest && t.hash.counter == 1 &&
    statusWord t.status == 0x00000003#32 && t.held == ⟨true, true, true, true, true, true⟩)
    (exec .hash (withOperands 0x1000 0x2000 3 (withAbc State.reset))) = true := by
  decide +kernel
/-- F24 to F31, F39, F40. -/
theorem test_hash_status : statusAfterCmd .hash 0x1000 0x2000 0x2000000000000000 State.reset = some 0x00000404#32 ∧
    statusAfterCmd .hash 0x1000 0x2000 0x1FFFFFFFFFFFFFFF State.reset = some 0x00000504#32 ∧
    statusAfterCmd .hash 0x1000 0x2000 0x3FFFFFFFB8 (session 0) = some 0x00000505#32 ∧
    statusAfterCmd .hash 0x1000 0x1010 17 State.reset = some 0x00000604#32 ∧
    statusAfterCmd .hash 0x1000 0x1011 17 State.reset = some 0x00000003#32 ∧
    statusAfterCmd .hash 0x1000 0x1000 0 State.reset = some 0x00000003#32 ∧
    statusAfterCmd .hash 0x1000 0x0FE1 3 State.reset = some 0x00000604#32 ∧
    statusAfterCmd .hash 0x1000 0x0FE0 3 State.reset = some 0x00000003#32 ∧
    statusAfterCmd .hash 0x1000 0x2000 0 faulted = some 0x00000003#32 ∧
    statusAfterCmd .hash 0x1000 0x2000 0x2000000000000000 faulted = some 0x00000105#32 := by
  decide +kernel

/-! ### Host actions (spec/10_state.md R29 to R34, spec/70_reset_and_hazards.md R240; spec/95 section 5, P2) -/

/-- F4, F5, F37. -/
theorem test_illegal_word : nextWith (fun t => statusWord t.status == 0x00000104#32)
      (step (withHost [.wr 0 0x00000101] State.reset)) = true ∧
    nextWith (fun t => statusWord t.status == 0x00000105#32) (step (withHost [.wr 0 7] faulted)) = true := by
  decide +kernel
theorem test_read_status : nextWith (fun t => t.reads == [0x00000003#32]) (step (withHost [.rd 1] finished)) = true := by
  decide +kernel
theorem test_read_window : nextWith (fun t => t.reads == [0x5be0cd19#32] && t.draws == 0)
    (step (withHost [.rd 0x197] (session 0))) = true := by
  decide +kernel
theorem test_read_window_without_value : nextWith (fun t => t.draws == 1 && t.reads.length == 1)
    (step (withHost [.rd 0x150] (session 0))) = true := by
  decide +kernel
theorem test_write_len_hi : nextWith (fun t => t.len == 0x100000000) (step (withHost [.wr 7 1] State.reset)) = true := by
  decide +kernel
theorem test_bus_status : nextWith (fun t => t.reads == [0x00000001#32])
    (step (withHost [.busRd (2 ^ 64 + 4) 4] (session 0))) = true := by
  decide +kernel
theorem test_reserved_register : stopsWith none (some (.reservedRegister 0x0FF)) (step (withHost [.rd 0x0FF] State.reset)) = true ∧
    stopsWith none (some (.reservedRegister 0x1A1)) (step (withHost [.wr 0x1A1 0] State.reset)) = true := by
  decide +kernel
theorem test_bus_stops :
    stopsWith none (some (.registerAccessWidth 2)) (step (withHost [.busRd (2 ^ 64) 2] State.reset)) = true ∧
    stopsWith none (some (.registerMisaligned (2 ^ 64 + 1))) (step (withHost [.busRd (2 ^ 64 + 1) 4] State.reset)) = true ∧
    stopsWith none (some (.notRegisterSpace 4)) (step (withHost [.busRd 4 4] State.reset)) = true ∧
    stopsWith (some (.noSuchAddress (2 ^ 64))) none (step (withHost [.load (2 ^ 64)] State.reset)) = true := by
  decide +kernel
theorem test_reset : nextWith (fun t => statusWord t.status == 0 && t.held == Held.reset && t.seq == Seq.idle)
    (step (withHost [.reset] finished)) = true := by
  decide +kernel
/-- The micro-steps of a FINISH: CHECK, STORE (R162). -/
theorem test_microSteps_finish :
    (microSteps 2 (beginCommand .finish (withOperands 0 0x2001 0 (session 0)))).eng.seq = Seq.idle ∧
    Memory.read (microSteps 2 (beginCommand .finish (withOperands 0 0x2001 0 (session 0)))).eng.mem 0x2001 = 0x6a := by
  decide +kernel

/-- The borders of the register map (R29). -/
theorem test_register_map : registerAt 0x007 = some .lenHi ∧ registerAt 0x008 = none ∧ registerAt 0x0FF = none ∧
    registerAt 0x100 = some (.k 0) ∧ registerAt 0x13F = some (.k 63) ∧ registerAt 0x140 = some (.data 0) ∧
    registerAt 0x14F = some (.data 15) ∧ registerAt 0x150 = some (.ws 0) ∧ registerAt 0x18F = some (.ws 63) ∧
    registerAt 0x190 = some (.whash 0) ∧ registerAt 0x197 = some (.whash 7) ∧ registerAt 0x198 = some (.whashCopy 0) ∧
    registerAt 0x19F = some (.whashCopy 7) ∧ registerAt 0x1A0 = some .counter ∧ registerAt 0x1A1 = none := by
  decide

/-- Round constants read off the table of R110: row, column and order. -/
theorem test_round_constants : K[0] = 0x428a2f98 ∧ K[3] = 0xe9b5dba5 ∧ K[4] = 0x3956c25b ∧ K[22] = 0x5cb0a9dc ∧
    K[47] = 0x106aa070 ∧ K[60] = 0x90befffa ∧ K[63] = 0xc67178f2 := by
  decide +kernel

/-- A platform that admits the one read of 130 bytes at 0x1000 and the store of 32 bytes at `dst`, with REG at 0x4000. -/
def oneReadOneStore (dst : Nat) : Platform := ⟨64, 0x4000, [.range 0x1000 130 .read, .range dst 32 .write]⟩

/-- Where HASH can store its digest, the manual composition can read its parts, 64 + 64 + 2, and no others (R198). -/
theorem test_range_grant :
    let p := oneReadOneStore 0x1082
    admits p 0x1000 130 .read = true ∧ admits p 0x1000 64 .read = true ∧
    admits p 0x1000 128 .read = true ∧ admits p 0x1040 64 .read = true ∧
    admits p 0x1080 2 .read = true ∧ admits p 0x1080 1 .read = false ∧
    admits p 0x1020 64 .read = false ∧ admits p 0x1000 129 .read = false ∧
    admits p 0x1000 130 .write = false ∧ admits p 0x1000 32 .read = false := by
  decide +kernel

/-- Where every digest would overlap the message, or none can be stored, R198 asks for no part: only the one read is
admitted, and an UPDATE there is refused with E_BUS (R61, R218). -/
theorem test_range_grant_alone :
    admits (oneReadOneStore 0x1081) 0x1000 130 .read = true ∧ admits (oneReadOneStore 0x1081) 0x1000 64 .read = false ∧
    (let p : Platform := ⟨64, 0x4000, [.range 0x1000 128 .read]⟩
     admits p 0x1000 128 .read = true ∧ admits p 0x1000 64 .read = false ∧
      statusAfterCmd .updateMulti 0x1000 0 2 { session 0 with platform := p } = some 0x00000001#32 ∧
      statusAfterCmd .update 0x1000 0 0 { session 0 with platform := p } = some 0x00000705#32) := by
  decide +kernel

/-- The lowest place for a digest is found above the message and the registers (R61, R217). -/
theorem test_hashable :
    hashable ⟨64, 0x4000, [.parts 0x3F00 0x800 .read, .parts 0x3F00 0x800 .write]⟩ 0x3F00 0x100 = true ∧
    hashable ⟨64, 0x4000, [.parts 0x3F00 0x100 .read, .parts 0x3F00 0x120 .write]⟩ 0x3F00 0x100 = false ∧
    hashable ⟨64, 0x4000, [.parts 0x3F00 0x100 .read, .parts 0x3F00 0x140 .write]⟩ 0x3F00 0x100 = true := by
  decide +kernel

/-- The registers lie at REG_BASE + 4*i for i = 0 to 7 and 0x100 to 0x1A0 (R29); the addresses between are not theirs. -/
theorem test_register_ranges :
    let p : Platform := { launchPlatform with regBase := 0x4000 }
    admits p 0x3FFF 1 .read = true ∧ admits p 0x3FFF 2 .read = false ∧ admits p 0x401F 1 .read = false ∧
    admits p 0x4020 0x3E0 .read = true ∧ admits p 0x43FF 2 .read = false ∧ admits p 0x4683 1 .read = false ∧
    admits p 0x4684 1 .read = true := by
  decide +kernel

/-- The platform takes its admission back between two commands, and a FINISH is refused with E_BUS (R61, R218). -/
theorem test_setAdmit : nextWith (fun t => nextWith (fun u => statusWord u.status == 0x00000705#32) (step t))
    (step (withHost [.setAdmit [], .wr 0 5] (session 0))) = true := by
  decide +kernel

/-! ### Witnesses: for every statement with hypotheses, what meets all of them together, at the borders of each clause -/

theorem exists_next {o : Host.Outcome State Fault Refusal} {p : State → Bool} (h : nextWith p o = true) :
    ∃ t, o = .next t ∧ p t = true := by
  cases o with
  | next t => exact ⟨t, rfl, h⟩
  | fault _ => exact absurd h Bool.false_ne_true
  | refused _ => exact absurd h Bool.false_ne_true

theorem exists_accepted {i : Instr} {s : State} (h : verdict i s = .accepted) : ∃ t, exec i s = .next t :=
  ⟨_, exec_of_accepted h⟩

theorem witness_IllegalWordIsRefused : (withHost [.wr 0 0x100] State.reset).host = .wr 0 0x100 :: [] ∧
    (0x00000100#32).toNat / 256 ≠ 0 ∧ (0xFFFFFF01#32).toNat / 256 ≠ 0 ∧ (0x00000000#32).toNat % 256 = 0 ∧
    7 ≤ (0x00000007#32).toNat % 256 ∧ 7 ≤ (0x000000FF#32).toNat % 256 := by
  decide +kernel

theorem witness_StepRunsDecodedCommand :
    (withHost [.wr 0 6, .rd 1] State.reset).host = .wr 0 6 :: [.rd 1] ∧ decode 6#32 = .ok .hash := by
  decide +kernel

theorem witness_IdleEngineDoesNothing : State.reset.host = [] := rfl

theorem witness_RefusalChangesOnlyFaultAndErr :
    (verdict .update State.reset ≠ .accepted ∧ State.reset.status.fault = false) ∧
    (verdict .finish faulted ≠ .accepted ∧ faulted.status.fault = true) ∧ decode 0x00000000#32 = .error .opcode ∧
    decode 0x00000100#32 = .error .zeroField := by
  decide +kernel

theorem witness_CheckTableDecides : decode 0x00000007#32 = .error .opcode ∧ decode 0x00000005#32 = .ok .finish := by
  decide +kernel

theorem witness_DecodeEncodeRoundTrip : decode 0x00000006#32 = .ok .hash := by decide +kernel

theorem witness_FaultClearIffAccepted : (∃ t, exec .init faulted = .next t ∧ (!t.status.fault) = true) ∧
    (∃ t, exec .update State.reset = .next t ∧ t.status.fault = true) :=
  ⟨exists_next (by decide +kernel), exists_next (by decide +kernel)⟩

theorem witness_OnlyInitHashResetClearFault : faulted.status.fault = true ∧
    (∃ t, step (withHost [.wr 0 1] faulted) = .next t ∧ (!t.status.fault) = true) ∧
    (∃ t, step (withHost [.busWr (2 ^ 64) 4 6] faulted) = .next t ∧ (!t.status.fault) = true) ∧
    (∃ t, step (withHost [.reset] faulted) = .next t ∧ (!t.status.fault) = true) :=
  ⟨rfl, exists_next (by decide +kernel), exists_next (by decide +kernel), exists_next (by decide +kernel)⟩

theorem witness_OnlyResetClearsInitDone : finished.status.initDone = true ∧
    (∃ t, step (withHost [.reset] finished) = .next t ∧ (!t.status.initDone) = true) ∧
    (∃ t, step (withHost [.resetDuring 1] finished) = .next t ∧ (!t.status.initDone) = true) :=
  ⟨rfl, exists_next (by decide +kernel), ⟨_, rfl, rfl⟩⟩

theorem witness_RotrRotatesBits : (0 < 1 ∧ 1 < 32 ∧ 0 < 32) ∧ (0 < 31 ∧ 31 < 32 ∧ 31 < 32) := by decide +kernel

theorem witness_SigmaAmounts : (0 < 32) ∧ 31 < 32 := by decide +kernel

theorem witness_WordsAndBytesAreInverse : 0 < 1 ∧ 7 < 8 ∧ 15 < 16 := by decide +kernel

theorem witness_AbsorbFeedsForward : 0 < 8 ∧ 7 < 8 := by decide +kernel

theorem witness_AbsorbDependsOnlyOnChain :
    let h := HashState.reset.load
    let g := { h with data := Vector.replicate 16 1 }
    h.whash = g.whash ∧ h.k = g.k ∧ h.counter = g.counter ∧ h ≠ g := by
  refine ⟨rfl, rfl, rfl, by decide +kernel⟩

theorem witness_AbsorbIsCompression : HashState.reset.load.k = K := rfl

theorem witness_UpdateAbsorbsOneBlock :
    let s := withOperands 0xFFFFFFFFFFFFFFC0 0 0 (session 0xFFFFFFFE)
    Absorbing s ∧ s.hash.counter.toNat < 2 ^ 32 - 1 ∧ admits s.platform s.src 64 .read = true := by
  refine ⟨⟨rfl, rfl, rfl⟩, by decide +kernel, by decide +kernel⟩

theorem witness_UpdateMultiAbsorbsBlocks :
    (let s := withOperands 0 0 0xFFFFFFFF (session 0)
     Absorbing s ∧ s.hash.counter.toNat < 2 ^ 32 - s.len ∧ admits s.platform s.src (64 * s.len) .read = true) ∧
    (let s := withOperands 0x9999 0 0 (session 0xFFFFFFFF)
     Absorbing s ∧ s.hash.counter.toNat < 2 ^ 32 - s.len ∧ admits s.platform s.src (64 * s.len) .read = true ∧
       s.len = 0) := by
  refine ⟨⟨⟨rfl, rfl, rfl⟩, by decide +kernel, by decide +kernel⟩, ⟨⟨rfl, rfl, rfl⟩, by decide +kernel, by decide +kernel, by decide +kernel⟩⟩

theorem witness_UpdateMultiComposes :
    (∃ t1 t2 t : State, (0x1040#64).toNat = (0x1000#64).toNat + 64 * (1#64).toNat ∧
      (2#64).toNat = (1#64).toNat + (1#64).toNat ∧
      verdict .updateMulti (withOperands 0x1000 0 1 (session 0)) = .accepted ∧
      exec .updateMulti (withOperands 0x1000 0 1 (session 0)) = .next t1 ∧
      verdict .updateMulti (withOperands 0x1040 0 1 t1) = .accepted ∧
      exec .updateMulti (withOperands 0x1040 0 1 t1) = .next t2 ∧
      verdict .updateMulti (withOperands 0x1000 0 2 (session 0)) = .accepted ∧
      exec .updateMulti (withOperands 0x1000 0 2 (session 0)) = .next t) ∧
    (withOperands 0x1000 0 1 (session 0)).len = 1 := by
  have v1 : verdict .updateMulti (withOperands 0x1000 0 1 (session 0)) = .accepted := by decide +kernel
  have v2 : verdict .updateMulti
      (withOperands 0x1040 0 1 (toIdle (effectOf .updateMulti (withOperands 0x1000 0 1 (session 0))))) = .accepted := by
    decide +kernel
  have v : verdict .updateMulti (withOperands 0x1000 0 2 (session 0)) = .accepted := by decide +kernel
  exact ⟨⟨_, _, _, by decide +kernel, by decide +kernel, v1, exec_of_accepted v1, v2, exec_of_accepted v2, v, exec_of_accepted v⟩,
    by decide +kernel⟩

theorem witness_PaddingLayout : (0 < 64 ∧ 55 < 64 ∧ 56 < 64 ∧ 63 < 64) ∧ (0 < 1 ∧ 0 < 128) ∧ (54 < 55 ∧ 54 < 128) ∧
    (0 < 1 ∧ 1 < 64 - 8) ∧ (55 < 56 ∧ 56 < 64 ∧ 56 < 128 - 8) ∧ (63 < 119 ∧ 119 < 128 - 8) ∧
    (7 < 8 ∧ 128 - 8 + 7 < 128) ∧ (64 ≤ 64 ∧ 64 < 128) := by
  decide +kernel

theorem witness_LengthFieldIsBitLength : 0 < 64 ∧ 63 < 64 ∧ 0 < 8 ∧ 7 < 8 := by decide +kernel

theorem witness_UpdateLastFinalizes :
    (let s := withOperands 0x1000 0 55 (session 0xFFFFFFFE)
     Absorbing s ∧ s.len < 64 ∧ s.hash.counter.toNat < (if s.len < 56 then 2 ^ 32 - 1 else 2 ^ 32 - 2) ∧
       admits s.platform s.src s.len .read = true) ∧
    (let s := withOperands 0x1000 0 63 (session 0xFFFFFFFD)
     Absorbing s ∧ s.len < 64 ∧ s.hash.counter.toNat < (if s.len < 56 then 2 ^ 32 - 1 else 2 ^ 32 - 2) ∧
       admits s.platform s.src s.len .read = true) := by
  refine ⟨⟨⟨rfl, rfl, rfl⟩, by decide +kernel, by decide +kernel, by decide +kernel⟩, ⟨⟨rfl, rfl, rfl⟩, by decide +kernel, by decide +kernel, by decide +kernel⟩⟩

theorem witness_LastBlockHoldsBitLength :
    (verdict .updateLast (withOperands 0x1000 0 55 (session 0xFFFFFFFE)) = .accepted ∧
      ∃ t, exec .updateLast (withOperands 0x1000 0 55 (session 0xFFFFFFFE)) = .next t) ∧
    (verdict .updateLast (withOperands 0x1000 0 56 (session 0)) = .accepted ∧
      ∃ t, exec .updateLast (withOperands 0x1000 0 56 (session 0)) = .next t) := by
  have v1 : verdict .updateLast (withOperands 0x1000 0 55 (session 0xFFFFFFFE)) = .accepted := by decide +kernel
  have v2 : verdict .updateLast (withOperands 0x1000 0 56 (session 0)) = .accepted := by decide +kernel
  exact ⟨⟨v1, exists_accepted v1⟩, ⟨v2, exists_accepted v2⟩⟩

theorem witness_FinishStoresDigest :
    (let s := withOperands 0 0xFFFFFFFFFFFFFFE0 0 finished
     s.mem.wf = true ∧ s.status.fault = false ∧ s.status.initDone = true ∧ admits s.platform s.dst 32 .write = true) ∧
    (let s := withOperands 0 0 0 (withAbc (session 0))
     s.mem.wf = true ∧ s.status.fault = false ∧ s.status.initDone = true ∧ admits s.platform s.dst 32 .write = true) := by
  decide +kernel

theorem witness_HashHashesMessage :
    (withAbc State.reset).mem.wf = true ∧ HashConditions (withOperands 0x1000 0x1000 0 (withAbc State.reset)) ∧
    HashConditions (withOperands 0x1000 0x1011 17 (withAbc faulted)) ∧
    HashConditions (withOperands 0x1000 0x0FE0 0x3FFFFFF000 (withAbc State.reset)) ∧
    HashConditions (withOperands 0x1000 0x0FE0 0x3FFFFFFFB7 (withAbc State.reset)) := by
  unfold HashConditions
  decide +kernel

theorem witness_HashEqualsManualComposition : launchPlatform.wellFormed = true ∧
    (verdict .hash (withOperands 0x1000 0x2000 3 (withAbc State.reset)) = .accepted ∧
      ∃ t, exec .hash (withOperands 0x1000 0x2000 3 (withAbc State.reset)) = .next t) ∧
    (verdict .hash (withOperands 0xFFFFFFFFFFFFFFC0 0x2000 64 State.reset) = .accepted ∧
      ∃ t, exec .hash (withOperands 0xFFFFFFFFFFFFFFC0 0x2000 64 State.reset) = .next t) := by
  have v1 : verdict .hash (withOperands 0x1000 0x2000 3 (withAbc State.reset)) = .accepted := by decide +kernel
  have v2 : verdict .hash (withOperands 0xFFFFFFFFFFFFFFC0 0x2000 64 State.reset) = .accepted := by decide +kernel
  exact ⟨by decide +kernel, ⟨v1, exists_accepted v1⟩, ⟨v2, exists_accepted v2⟩⟩

theorem witness_HashStoresReferenceDigest : (withAbc State.reset).mem.wf = true ∧
    verdict .hash (withOperands 0x1000 0x2000 3 (withAbc State.reset)) = .accepted ∧
    ∃ t, exec .hash (withOperands 0x1000 0x2000 3 (withAbc State.reset)) = .next t := by
  have v1 : verdict .hash (withOperands 0x1000 0x2000 3 (withAbc State.reset)) = .accepted := by decide +kernel
  exact ⟨by decide +kernel, v1, exists_accepted v1⟩

theorem witness_HashIsPureFunction :
    let s := withOperands 0x1000 0x2000 2 (withAbc State.reset)
    let s' := withOperands 0x3000 0x2003 2 { faulted with mem := [(0x3000, 0x61), (0x3001, 0x62)] }
    s.mem.wf = true ∧ s'.mem.wf = true ∧ verdict .hash s = .accepted ∧ verdict .hash s' = .accepted ∧
      (∃ t, exec .hash s = .next t) ∧ (∃ t, exec .hash s' = .next t) ∧
      bytesAt s.mem s.src s.len = bytesAt s'.mem s'.src s'.len := by
  have v1 : verdict .hash (withOperands 0x1000 0x2000 2 (withAbc State.reset)) = .accepted := by decide +kernel
  have v2 : verdict .hash
      (withOperands 0x3000 0x2003 2 { faulted with mem := [(0x3000, 0x61), (0x3001, 0x62)] }) = .accepted := by
    decide +kernel
  exact ⟨by decide +kernel, by decide +kernel, v1, v2, exists_accepted v1, exists_accepted v2, by decide +kernel⟩

theorem witness_HashRefusesLongMessages : State.reset.status.fault = false ∧
    2 ^ 61 ≤ (withOperands 0 0 0x2000000000000000 State.reset).len ∧
    2 ^ 38 - 72 ≤ (withOperands 0 0 0x3FFFFFFFB8 State.reset).len ∧
    (withOperands 0 0 0x3FFFFFFFB8 State.reset).len < 2 ^ 61 ∧
    (withOperands 0 0 0x1FFFFFFFFFFFFFFF State.reset).len < 2 ^ 61 ∧ faulted.status.fault = true ∧
    (withOperands 0 0 0x3FFFFFFFB7 State.reset).len ≤ 2 ^ 38 - 73 := by
  decide +kernel

theorem witness_CommandsKeepSurroundings : ∃ t, exec .finish (withOperands 0 0x2000 0 (session 0)) = .next t :=
  exists_accepted (by decide +kernel)

theorem witness_MemoryWriteFootprint : (∃ t, exec .init State.reset = .next t) ∧
    (∃ t, exec .finish (withOperands 0 0x2000 0 (session 0)) = .next t) ∧
    (verdict .hash (withOperands 0x1000 0x1010 17 State.reset) ≠ .accepted ∧
      ∃ t, exec .hash (withOperands 0x1000 0x1010 17 State.reset) = .next t ∧ t.status.fault = true) :=
  ⟨⟨_, rfl⟩, exists_accepted (by decide +kernel), by decide +kernel, exists_next (by decide +kernel)⟩

theorem witness_MemoryReadFootprint :
    let s := withOperands 0x1000 0 3 (withAbc (session 0))
    let m : Memory := s.mem ++ [(0x1003, 0x7F)]
    (∀ a, s.src ≤ a ∧ a < s.src + s.len → m.read a = s.mem.read a) ∧ m ≠ s.mem ∧
      ∃ t, exec .updateLast s = .next t := by
  refine ⟨fun a ⟨h1, h2⟩ => ?_, by decide +kernel, exists_accepted (by decide +kernel)⟩
  rw [src_withOperands] at h1 h2
  rw [len_withOperands] at h2
  simp only [BitVec.reduceToNat] at h1 h2
  obtain rfl | rfl | rfl : a = 0x1000 ∨ a = 0x1001 ∨ a = 0x1002 := by omega
  all_goals rfl

theorem witness_UnusedOperandsAreIgnored :
    (∃ t, exec .init (withOperands 0x1000 0x2000 3 State.reset) = .next t) ∧
    (∃ t, exec .update (withOperands 0x1000 0x2000 3 (session 0)) = .next t) ∧
    (∃ t, exec .updateMulti (withOperands 0x1000 0x2000 3 (session 0)) = .next t) ∧
    (∃ t, exec .updateLast (withOperands 0x1000 0x2000 3 (session 0)) = .next t) ∧
    (∃ t, exec .finish (withOperands 0x1000 0x2000 3 (session 0)) = .next t) :=
  ⟨exists_accepted (by decide +kernel), exists_accepted (by decide +kernel), exists_accepted (by decide +kernel),
    exists_accepted (by decide +kernel), exists_accepted (by decide +kernel)⟩

theorem witness_CounterNeverWraps : (∃ t, exec .update (withOperands 0x1000 0 0 (session 0xFFFFFFFE)) = .next t) ∧
    Instr.update ≠ .init ∧ Instr.update ≠ .hash :=
  ⟨exists_accepted (by decide +kernel), by decide +kernel, by decide +kernel⟩

theorem witness_RegisterAccessRules : (0x100 ≤ 0x100 ∧ 0x100 ≤ 0x1A0) ∧ (0x100 ≤ 0x1A0 ∧ 0x1A0 ≤ 0x1A0) ∧
    (0x008 ≤ 0x008 ∧ 0x008 ≤ 0x0FF) ∧ (0x008 ≤ 0x0FF ∧ 0x0FF ≤ 0x0FF) ∧ 0x1A1 ≤ 0x1A1 := by
  decide +kernel

theorem witness_StateWindowShowsHashState : (session 0).held.k = true ∧ (session 0).held.ws = false ∧ 63 < 64 ∧ 15 < 16 ∧
    7 < 8 := by
  decide +kernel

theorem witness_BusAccessesReachRegisters : (3 ≠ 4) ∧ State.reset.platform.regBase ≤ 2 ^ 64 + 3 ∧
    (2 ^ 64 + 3 - State.reset.platform.regBase) % 4 ≠ 0 := by
  decide +kernel

theorem witness_HostMemoryAccess : (withAbc State.reset).mem.wf = true ∧ 2 ^ 64 - 1 < 2 ^ State.reset.platform.aw ∧
    2 ^ State.reset.platform.aw ≤ 2 ^ 64 := by
  decide +kernel

theorem witness_AdmitProperties : (0 < 2 ∧ 2 ^ launchPlatform.aw < 2 ^ 64 - 1 + 2) ∧
    (let p : Platform := { launchPlatform with regBase := 0x4000 }
     3 < 4 ∧ 0x4683 ≤ p.regBase + 4 * registerNumber .counter + 3 ∧
       p.regBase + 4 * registerNumber .counter + 3 < 0x4683 + 1 ∧
       0x401F ≤ p.regBase + 4 * registerNumber .lenHi + 3 ∧ p.regBase + 4 * registerNumber .lenHi + 3 < 0x401F + 1) ∧
    (130 ≤ 2 ^ 38 - 73 ∧ admits (oneReadOneStore 0x1082) 0x1000 130 .read = true ∧
      admits (oneReadOneStore 0x1082) 0x1082 32 .write = true ∧ (0x1082 + 32 ≤ 0x1000 ∨ 0x1000 + 130 ≤ 0x1082) ∧
      64 * (1 + 1) ≤ 130) ∧
    (2 ^ 38 - 73 ≤ 2 ^ 38 - 73 ∧ admits launchPlatform 0x1000 (2 ^ 38 - 73) .read = true ∧
      admits launchPlatform 0x0FE0 32 .write = true ∧ 0x0FE0 + 32 ≤ 0x1000) ∧
    ∃ t, exec .init State.reset = .next t := by
  refine ⟨by decide +kernel, by decide +kernel, by decide +kernel, by decide +kernel, ⟨_, rfl⟩⟩

/-- An Admit that is not closed under parts: the one read of 128 bytes at 0x1000 and no other access, which no HASH and
so no R198 looks at (AW = 16, REG at 0x4000). -/
def onlyRead128 (addr n : Nat) (kind : AccessKind) : Bool := n == 0 || (addr == 0x1000 && n == 128 && kind == .read)

/-- Where a range that is not empty is admitted, it is the one. -/
theorem onlyRead128_pos {addr n : Nat} {kind : AccessKind} (hn : 0 < n) :
    onlyRead128 addr n kind = true ↔ addr = 0x1000 ∧ n = 128 ∧ kind = .read := by
  simp [onlyRead128, and_assoc]
  omega

theorem witness_EveryAdmitIsAPlatform :
    (∀ addr kind, onlyRead128 addr 0 kind = true) ∧
    (∀ addr n kind, 0 < n → 2 ^ 16 < addr + n → onlyRead128 addr n kind = false) ∧
    (∀ addr n kind (r : RegName) (j : Nat), j < 4 → addr ≤ 0x4000 + 4 * registerNumber r + j →
      0x4000 + 4 * registerNumber r + j < addr + n → onlyRead128 addr n kind = false) ∧
    (∀ addr n dst, n ≤ 2 ^ 38 - 73 → onlyRead128 addr n .read = true → onlyRead128 dst 32 .write = true →
      (n = 0 ∨ dst + 32 ≤ addr ∨ addr + n ≤ dst) →
      (∀ i m, 64 * (i + m) ≤ n → onlyRead128 (addr + 64 * i) (64 * m) .read = true) ∧
      onlyRead128 (addr + 64 * (n / 64)) (n % 64) .read = true) ∧
    onlyRead128 0x1000 128 .read = true ∧ onlyRead128 0x1000 64 .read = false := by
  refine ⟨fun addr kind => by simp [onlyRead128], fun addr n kind h1 h2 => ?_, fun addr n kind r j h1 h2 h3 => ?_,
    fun addr n dst _ _ h => absurd ((onlyRead128_pos (by omega)).mp h).2.2 (by simp), rfl, rfl⟩
  · rw [← Bool.not_eq_true, onlyRead128_pos h1]
    omega
  · rw [← Bool.not_eq_true, onlyRead128_pos (by omega)]
    omega

/-- The last premise is met by an Admit that a HASH does look at, too: one read of 3 bytes and one digest. -/
def threeBytesAndDigest (addr n : Nat) (kind : AccessKind) : Bool :=
  n == 0 || (addr == 0 && n == 3 && kind == .read) || (addr == 0x20 && n == 32 && kind == .write)

theorem witness_EveryAdmitIsAPlatform_hashable :
    (∀ addr n dst, n ≤ 2 ^ 38 - 73 → threeBytesAndDigest addr n .read = true →
      threeBytesAndDigest dst 32 .write = true → (n = 0 ∨ dst + 32 ≤ addr ∨ addr + n ≤ dst) →
      (∀ i m, 64 * (i + m) ≤ n → threeBytesAndDigest (addr + 64 * i) (64 * m) .read = true) ∧
      threeBytesAndDigest (addr + 64 * (n / 64)) (n % 64) .read = true) ∧
    threeBytesAndDigest 0 3 .read = true ∧ threeBytesAndDigest 0x20 32 .write = true := by
  refine ⟨fun addr n dst _ h _ _ => ?_, rfl, rfl⟩
  simp only [threeBytesAndDigest, Bool.or_eq_true, Bool.and_eq_true, beq_iff_eq, reduceCtorEq, and_false, or_false,
    and_true] at h ⊢
  exact ⟨fun i m him => by omega, by omega⟩

theorem witness_ResetValues : (withHost [.reset] finished).host = .reset :: [] := rfl

theorem witness_MidCommandReset :
    (session 0).mem.wf = true ∧ ∃ done, commandWrite 5 (withOperands 0 0x2000 0 (session 0)) = .next done ∧
      (Memory.read done.mem 0x2000 == 0x6a) = true :=
  ⟨by decide +kernel, exists_next (by decide +kernel)⟩

/-- A FINISH about to run from the state after absorbing the block of 64 zero bytes: `data` and `ws` are zeros (spec/95
section 2.2). -/
def aboutToFinish : State :=
  withHost [.wr 0 5] (withOperands 0 0x2000 0 { session 0 with held := ⟨true, true, true, true, true, true⟩ })

theorem aboutToFinish_steps : ∃ t, step aboutToFinish = .next t ∧ (Memory.read t.mem 0x2000 == 0x6a) = true :=
  exists_next (by decide +kernel)

theorem witness_StepKeepsMemory : MemoryOk aboutToFinish ∧
    ∃ t, step aboutToFinish = .next t ∧ (Memory.read t.mem 0x2000 == 0x6a) = true :=
  ⟨⟨by decide +kernel, fun _ h => absurd h List.not_mem_nil⟩, aboutToFinish_steps⟩

theorem witness_StepKeepsMemory_platform : ∀ grants rest, aboutToFinish.host ≠ .setAdmit grants :: rest := by
  intro grants rest h
  simp [aboutToFinish, withHost] at h

theorem witness_StepKeepsStatus : StatusOk aboutToFinish ∧
    ∃ t, step aboutToFinish = .next t ∧ (Memory.read t.mem 0x2000 == 0x6a) = true :=
  ⟨⟨by decide +kernel, by decide +kernel⟩, aboutToFinish_steps⟩

theorem witness_StepKeepsHeld : HeldOk aboutToFinish ∧
    ∃ t, step aboutToFinish = .next t ∧ (Memory.read t.mem 0x2000 == 0x6a) = true :=
  ⟨⟨rfl, rfl, rfl, rfl, rfl, by decide +kernel, by decide +kernel⟩, aboutToFinish_steps⟩

theorem witness_StepKeepsConstants : ConstantsOk aboutToFinish ∧ aboutToFinish.status.initDone = true ∧
    ∃ t, step aboutToFinish = .next t ∧ (Memory.read t.mem 0x2000 == 0x6a) = true :=
  ⟨fun _ => rfl, rfl, aboutToFinish_steps⟩

theorem witness_StepKeepsSchedule : ScheduleOk aboutToFinish ∧ aboutToFinish.held.ws = true ∧
    ∃ t, step aboutToFinish = .next t ∧ (Memory.read t.mem 0x2000 == 0x6a) = true := by
  refine ⟨fun _ => ⟨fun t h => ?_, fun t h1 h2 => ?_⟩, rfl, aboutToFinish_steps⟩
  · show (Vector.replicate 64 0)[t] = (Vector.replicate 16 0)[t]
    rw [Vector.getElem_replicate, Vector.getElem_replicate]
  · show (Vector.replicate 64 0)[t] = ssig1 (Vector.replicate 64 0)[t - 2] + (Vector.replicate 64 0)[t - 7] +
      ssig0 (Vector.replicate 64 0)[t - 15] + (Vector.replicate 64 0)[t - 16]
    simp only [Vector.getElem_replicate]
    decide +kernel

theorem witness_StepKeepsChain : ChainOk aboutToFinish ∧ aboutToFinish.status.initDone = true ∧
    ∃ t, step aboutToFinish = .next t ∧ (Memory.read t.mem 0x2000 == 0x6a) = true := by
  refine ⟨fun _ => ⟨rfl, [], rfl, ?_⟩, rfl, aboutToFinish_steps⟩
  rw [List.foldl_nil]
  rfl

theorem witness_StepKeepsSequencerIdle : SeqOk aboutToFinish ∧
    ∃ t, step aboutToFinish = .next t ∧ (Memory.read t.mem 0x2000 == 0x6a) = true :=
  ⟨rfl, aboutToFinish_steps⟩

theorem witness_UnheldElementsAreUnobservable :
    let s := withHost [.rd 0x150] (session 0)
    let t := { s with hash := { s.hash with data := Vector.replicate 16 1, ws := Vector.replicate 64 1 } }
    HeldOk s ∧ AlikeWhereHeld s t ∧ s ≠ t := by
  refine ⟨⟨rfl, rfl, rfl, rfl, rfl, by decide +kernel, by decide +kernel⟩, ⟨rfl, fun _ => rfl, ?_, ?_, fun _ => rfl, ?_, fun _ => rfl⟩,
    by decide +kernel⟩ <;> intro h <;> exact absurd h (by decide +kernel)

theorem witness_SequencerRefinesExec : ∃ t, exec .finish (withOperands 0 0x2000 0 (session 0)) = .next t :=
  exists_accepted (by decide +kernel)

end Sys2Proof.Tests
end

section
/-! PROOFS. Every Admit that R61 allows and R198 holds under, written as grants: one for each range it admits (R61; log
entry 7). -/

namespace Sys2Proof.Machine

/-! ### Ranges below `2^AW` as a finite list of grants -/

/-- The ranges with a beginning and a size of at most `top` that `P` admits, one grant for each. -/
def rangesBelow (top : Nat) (P : Nat → Nat → AccessKind → Bool) : List Grant :=
  [AccessKind.read, .write].flatMap fun kind => (List.range (top + 1)).flatMap fun addr =>
    ((List.range (top + 1)).filter fun n => P addr n kind).map fun n => .range addr n kind

theorem mem_rangesBelow {top : Nat} {P : Nat → Nat → AccessKind → Bool} {g : Grant} :
    g ∈ rangesBelow top P ↔
      ∃ addr n kind, addr ≤ top ∧ n ≤ top ∧ P addr n kind = true ∧ g = .range addr n kind := by
  have hkind : ∀ kind : AccessKind, kind ∈ [AccessKind.read, .write] := by intro kind; cases kind <;> simp
  simp only [rangesBelow, List.mem_flatMap, List.mem_map, List.mem_filter, List.mem_range, Nat.lt_succ_iff]
  constructor
  · rintro ⟨kind, -, addr, ha, n, ⟨hn, hP⟩, rfl⟩
    exact ⟨addr, n, kind, ha, hn, hP, rfl⟩
  · rintro ⟨addr, n, kind, ha, hn, hP, rfl⟩
    exact ⟨kind, hkind kind, addr, ha, n, ⟨hn, hP⟩, rfl⟩

/-! ### Registers by number (R29) -/

/-- Every number of a control register or of the STATE window is the number of a register. -/
theorem exists_registerNumber {n : Nat} (h : n < controlRegs ∨ windowFirst ≤ n ∧ n < windowEnd) :
    ∃ r, registerNumber r = n := by
  simp only [controlRegs, windowFirst, windowEnd] at h
  rcases h with h | ⟨hlo, hhi⟩
  · interval_cases n
    exacts [⟨.cmd, rfl⟩, ⟨.status, rfl⟩, ⟨.srcLo, rfl⟩, ⟨.srcHi, rfl⟩, ⟨.dstLo, rfl⟩, ⟨.dstHi, rfl⟩, ⟨.lenLo, rfl⟩,
      ⟨.lenHi, rfl⟩]
  obtain ⟨i, rfl⟩ := Nat.exists_eq_add_of_le hlo
  by_cases h1 : i < 0x40
  · exact ⟨.k ⟨i, h1⟩, rfl⟩
  by_cases h2 : i < 0x50
  · exact ⟨.data ⟨i - 0x40, by omega⟩, by simp only [registerNumber]; omega⟩
  by_cases h3 : i < 0x90
  · exact ⟨.ws ⟨i - 0x50, by omega⟩, by simp only [registerNumber]; omega⟩
  by_cases h4 : i < 0x98
  · exact ⟨.whash ⟨i - 0x90, by omega⟩, by simp only [registerNumber]; omega⟩
  by_cases h5 : i < 0xA0
  · exact ⟨.whashCopy ⟨i - 0x98, by omega⟩, by simp only [registerNumber]; omega⟩
  · exact ⟨.counter, by simp only [registerNumber]; omega⟩

/-- A range that is not empty and meets a run of registers shares byte `j` of one of them. -/
theorem exists_byte_of_meetsRun {p : Platform} {first last addr n : Nat} (hn : 0 < n) (hfl : first < last)
    (h : meetsRun p first last addr n = true) :
    ∃ i j, first ≤ i ∧ i < last ∧ j < 4 ∧ addr ≤ p.regBase + 4 * i + j ∧ p.regBase + 4 * i + j < addr + n := by
  simp only [meetsRun, decide_eq_true_eq] at h
  by_cases hb : addr ≤ p.regBase + 4 * first
  · exact ⟨first, 0, by omega⟩
  · exact ⟨(addr - p.regBase) / 4, (addr - p.regBase) % 4, by omega⟩

/-- A range that is not empty and meets the registers shares a byte with one of them (R61(3)). -/
theorem exists_register_of_meetsRegs {p : Platform} {addr n : Nat} (hn : 0 < n) (h : meetsRegs p addr n = true) :
    ∃ r j, j < 4 ∧ addr ≤ p.regBase + 4 * registerNumber r + j ∧
      p.regBase + 4 * registerNumber r + j < addr + n := by
  have named : ∃ i j, (i < controlRegs ∨ windowFirst ≤ i ∧ i < windowEnd) ∧ j < 4 ∧
      addr ≤ p.regBase + 4 * i + j ∧ p.regBase + 4 * i + j < addr + n := by
    rcases (Bool.or_eq_true _ _).mp h with h | h
    · obtain ⟨i, j, -, hi, hj⟩ := exists_byte_of_meetsRun hn (by decide) h
      exact ⟨i, j, .inl hi, hj⟩
    · obtain ⟨i, j, hlo, hhi, hj⟩ := exists_byte_of_meetsRun hn (by decide) h
      exact ⟨i, j, .inr ⟨hlo, hhi⟩, hj⟩
  obtain ⟨i, j, hi, hj⟩ := named
  obtain ⟨r, rfl⟩ := exists_registerNumber hi
  exact ⟨r, j, hj⟩

/-! ### What these grants admit -/

/-- Of the ranges that are not empty, the platform grants exactly those that `P` admits. -/
theorem granted_rangesBelow {aw regBase : Nat} {P : Nat → Nat → AccessKind → Bool}
    (hwrap : ∀ addr n kind, 0 < n → 2 ^ aw < addr + n → P addr n kind = false)
    (hregs : ∀ addr n kind (r : RegName) (j : Nat), j < 4 → addr ≤ regBase + 4 * registerNumber r + j →
      regBase + 4 * registerNumber r + j < addr + n → P addr n kind = false)
    {addr n : Nat} {kind : AccessKind} (hn : 0 < n) :
    granted ⟨aw, regBase, rangesBelow (2 ^ aw) P⟩ addr n kind = true ↔ P addr n kind = true := by
  rw [granted_iff]
  constructor
  · rintro ⟨-, -, g, hg, hc⟩
    obtain ⟨addr', n', kind', -, -, hP, rfl⟩ := mem_rangesBelow.mp hg
    simp only [covers, decide_eq_true_eq] at hc
    obtain ⟨rfl, rfl, rfl⟩ := hc
    exact hP
  · intro hP
    have htop : addr + n ≤ 2 ^ aw := by
      by_contra hlt
      rw [hwrap addr n kind hn (by omega)] at hP
      cases hP
    refine ⟨htop, Bool.eq_false_iff.mpr fun hm => ?_, .range addr n kind,
      mem_rangesBelow.mpr ⟨addr, n, kind, by omega, by omega, hP, rfl⟩, by simp [covers]⟩
    obtain ⟨r, j, hj, hlo, hhi⟩ := exists_register_of_meetsRegs hn hm
    rw [hregs addr n kind r j hj hlo hhi] at hP
    cases hP

/-- Under R198 a predicate that admits a message and, clear of it, a digest admits every part of the message that the
manual composition reads. -/
theorem admitted_of_isHashPart {P : Nat → Nat → AccessKind → Bool} {base size addr n : Nat}
    (hparts : (∀ i m, 64 * (i + m) ≤ size → P (base + 64 * i) (64 * m) .read = true) ∧
      P (base + 64 * (size / 64)) (size % 64) .read = true)
    (h : isHashPart base size addr n = true) : P addr n .read = true := by
  simp only [isHashPart, decide_eq_true_eq] at h
  obtain ⟨hbase, halign, ⟨hn, hin⟩ | ⟨rfl, rfl⟩⟩ := h
  · have hblocks := hparts.1 ((addr - base) / 64) (n / 64) (by omega)
    rwa [show base + 64 * ((addr - base) / 64) = addr by omega, show 64 * (n / 64) = n by omega] at hblocks
  · exact hparts.2

/-- Settles O48: a platform with one grant for each range that the predicate admits. What R198 makes the model admit
beside the grants, the predicate admits by its last premise. -/
theorem everyAdmitIsAPlatform : Obligations.EveryAdmitIsAPlatform := by
  intro aw regBase P hempty hwrap hregs hcomposed
  have hgranted := fun addr n kind (hn : 0 < n) =>
    granted_rangesBelow (addr := addr) (n := n) (kind := kind) hwrap hregs hn
  refine ⟨rangesBelow (2 ^ aw) P, fun addr n kind => ?_⟩
  rcases Nat.eq_zero_or_pos n with rfl | hn
  · rw [admits_zero, hempty]
  rw [Bool.eq_iff_iff, admits_pos hn, hgranted addr n kind hn]
  refine ⟨?_, .inl⟩
  rintro (hP | ⟨rfl, base, size, -, hhash, hpart⟩)
  · exact hP
  obtain ⟨hsize, hread, dst, hwrite, hclear⟩ := hashable_iff.mp hhash
  have hpos : 0 < size := by have := isHashPart_inside hpart; omega
  exact admitted_of_isHashPart
    (hcomposed base size dst hsize ((hgranted _ _ _ hpos).mp hread) ((hgranted _ _ _ (by decide)).mp hwrite)
      (rangesOverlap_eq_false.mp hclear)) hpart

end Sys2Proof.Machine
end

section
/-! PROOFS. The engine's buffers compute the functions written over lists: bytes and words, schedule, rounds, one
absorption (R54, R55, R130, R140, R157). -/

namespace Sys2Proof.Machine

open Sys2Proof.Safety

/-! ### Bytes and words over lists (R54, R55) -/

@[simp] theorem length_wordsOf : ∀ l : List Byte, (wordsOf l).length = l.length / 4
  | _ :: _ :: _ :: _ :: rest => by simp only [wordsOf, List.length_cons, length_wordsOf rest]; omega
  | [] | [_] | [_, _] | [_, _, _] => by simp [wordsOf]

theorem getElem_wordsOf : ∀ (l : List Byte) (i : Nat) (hi : 4 * i + 3 < l.length),
    (wordsOf l)[i]'(by rw [length_wordsOf]; omega) = be32 l[4 * i] l[4 * i + 1] l[4 * i + 2] l[4 * i + 3]
  | _ :: _ :: _ :: _ :: _, 0, _ => rfl
  | _ :: _ :: _ :: _ :: rest, i + 1, hi => by
    simp only [List.length_cons] at hi
    simpa [wordsOf, Nat.mul_add] using getElem_wordsOf rest i (by omega)
  | [], i, hi | [_], i, hi | [_, _], i, hi | [_, _, _], i, hi => by simp at hi

@[simp] theorem length_bytesOf (l : List Word) : (bytesOf l).length = 4 * l.length := by
  induction l with
  | nil => rfl
  | cons w l ih => simp only [bytesOf, List.length_cons, ih]; omega

theorem getElem_bytesOf (l : List Word) (i j : Nat) (hi : i < l.length) (hj : j < 4) :
    (bytesOf l)[4 * i + j]'(by rw [length_bytesOf]; omega) = wordByte l[i] j := by
  induction l generalizing i with
  | nil => simp at hi
  | cons w l ih =>
    cases i with
    | zero => interval_cases j <;> rfl
    | succ i =>
      simp only [List.length_cons] at hi
      simpa [bytesOf, show 4 * (i + 1) + j = 4 * i + j + 4 by omega] using ih i (by omega)

/-- The block buffer holds the words of the list of bytes. -/
theorem toList_bytesToWordsBE {n : Nat} (b : Vector Byte (4 * n)) : (bytesToWordsBE b).toList = wordsOf b.toList := by
  refine List.ext_getElem (by simp) fun i hi _ => ?_
  simp only [Vector.length_toList] at hi
  rw [getElem_wordsOf _ _ (by simp; omega)]
  simp [bytesToWordsBE]

/-- The serialized words are the bytes of the list of words. -/
theorem toList_wordsToBytesBE {n : Nat} (w : Vector Word n) : (wordsToBytesBE w).toList = bytesOf w.toList := by
  refine List.ext_getElem (by simp) fun m hm _ => ?_
  simp only [Vector.length_toList] at hm
  have hbyte := getElem_bytesOf w.toList (m / 4) (m % 4) (by simp; omega) (by omega)
  simp only [Nat.div_add_mod] at hbyte
  rw [hbyte]
  simp [wordsToBytesBE]

/-! ### The schedule (R130 to R132) -/

/-- Phase 1 copies the block into the first 16 words (R131). -/
theorem HashState.getElem_schedPhase1_ws (h : HashState) (t : Nat) (ht : t < 16) :
    h.schedPhase1.ws[t] = h.data[t] := by
  rw [HashState.schedPhase1_eq]
  have copied := fold_index_induction
    (fun n (g : HashState) => g.data = h.data ∧ ∀ t (ht : t < 16), t < n → g.ws[t] = h.data[t])
    (n := 16) (fun t ht g => HashState.sched1 ⟨t, ht⟩ g) (m := h)
    ⟨rfl, fun _ _ h0 => absurd h0 (Nat.not_lt_zero _)⟩ ?_
  · exact copied.2 t ht ht
  · rintro j hj g ⟨hdata, hws⟩
    refine ⟨by rw [HashState.sched1_data, hdata], fun t ht htj => ?_⟩
    rw [HashState.sched1_ws]
    by_cases e : j = t
    · subst e
      simp [hdata]
    · exact (Vector.getElem_set_ne _ _ e).trans (hws t ht (by omega))

/-- Phase 2 keeps the first 16 words and makes each later one the sum of four earlier ones (R132). -/
theorem HashState.schedPhase2_ws (h : HashState) :
    (∀ t (ht : t < 16), h.schedPhase2.ws[t] = h.ws[t]) ∧
      ∀ t (_ : 16 ≤ t) (ht : t < 64), h.schedPhase2.ws[t] = scheduleTerm h.schedPhase2.ws ⟨t, ht⟩ := by
  rw [HashState.schedPhase2_eq]
  have extended := fold_index_induction
    (fun n (g : HashState) => (∀ t (ht : t < 16), g.ws[t] = h.ws[t]) ∧
      ∀ t (_ : 16 ≤ t) (ht : t < 64), t < 16 + n → g.ws[t] = scheduleTerm g.ws ⟨t, ht⟩)
    (n := 48) (fun u hu g => HashState.sched2 ⟨16 + u, by omega⟩ g) (m := h)
    ⟨fun _ _ => rfl, fun _ _ _ _ => by omega⟩ ?_
  · exact ⟨extended.1, fun t h16 ht => extended.2 t h16 ht ht⟩
  · rintro u hu g ⟨hfirst, hlater⟩
    have kept : ∀ t (ht : t < 64), t ≠ 16 + u → (g.sched2 ⟨16 + u, by omega⟩).ws[t] = g.ws[t] := by
      intro t ht hne
      rw [HashState.sched2_ws]
      exact Vector.getElem_set_ne _ _ (Ne.symm hne)
    have term_kept : ∀ t (h16 : 16 ≤ t) (ht : t < 64), t ≤ 16 + u →
        scheduleTerm (g.sched2 ⟨16 + u, by omega⟩).ws ⟨t, ht⟩ = scheduleTerm g.ws ⟨t, ht⟩ := by
      intro t h16 ht htu
      simp only [scheduleTerm]
      rw [kept (t - 2) (by omega) (by omega), kept (t - 7) (by omega) (by omega),
        kept (t - 15) (by omega) (by omega), kept (t - 16) (by omega) (by omega)]
    refine ⟨fun t ht => by rw [kept t (by omega) (by omega), hfirst t ht], fun t h16 ht htu => ?_⟩
    rw [term_kept t h16 ht (by omega)]
    by_cases e : t = 16 + u
    · subst e
      simp
    · rw [kept t ht e, hlater t h16 ht (by omega)]

/-- `SCHED()` leaves in `ws` the schedule of the block in `data` (R130, R133). -/
theorem HashState.isSchedule_sched (h : HashState) : IsSchedule h.data h.sched.ws := by
  obtain ⟨hfirst, hlater⟩ := h.schedPhase1.schedPhase2_ws
  refine ⟨fun t ht => ?_, hlater⟩
  rw [← h.getElem_schedPhase1_ws t ht]
  exact hfirst t ht

/-- The list that begins with `ws[t-1]` grows by `ws[t]`. -/
theorem extendSchedule_take {data : Vector Word 16} {ws : Vector Word 64} (h : IsSchedule data ws) (n t : Nat)
    (ht : 16 ≤ t) (hn : t + n ≤ 64) :
    extendSchedule n (ws.toList.take t).reverse = (ws.toList.take (t + n)).reverse := by
  induction n generalizing t with
  | zero => rfl
  | succ n ih =>
    have newest : ∀ k (hk : k < 16), (ws.toList.take t).reverse.getD k 0 = ws[t - 1 - k] := by
      intro k hk
      have hlen : (ws.toList.take t).length = t := by simp; omega
      rw [List.getD_eq_getElem _ _ (by rw [List.length_reverse]; omega), List.getElem_reverse]
      simp [hlen]
    rw [extendSchedule, newest 1 (by decide), newest 6 (by decide), newest 14 (by decide), newest 15 (by decide)]
    have grown : (ws.toList.take (t + 1)).reverse = ws[t] :: (ws.toList.take t).reverse := by
      rw [List.take_succ_eq_append_getElem (by simp; omega), List.reverse_append]
      rfl
    have hterm : ssig1 ws[t - 1 - 1] + ws[t - 1 - 6] + ssig0 ws[t - 1 - 14] + ws[t - 1 - 15] = ws[t] :=
      (h.2 t ht (by omega)).symm
    rw [hterm, ← grown, ih (t + 1) (by omega) (by omega), show t + 1 + n = t + (n + 1) by omega]

/-- A message schedule of a block is the one written over lists. -/
theorem toList_eq_scheduleOf {data : Vector Word 16} {ws : Vector Word 64} (h : IsSchedule data ws) :
    ws.toList = scheduleOf data.toList := by
  have first : ws.toList.take 16 = data.toList := by
    refine List.ext_getElem (by simp) fun i _ hi => ?_
    simpa using h.1 i (by simpa using hi)
  rw [scheduleOf, ← first, extendSchedule_take h 48 16 (by decide) (by decide), List.reverse_reverse,
    List.take_of_length_le (by simp)]

/-! ### The rounds and one absorption (R140, R157) -/

/-- The 64 rounds consume the round constants and the schedule words in order (R140). -/
theorem HashState.rounds_whashCopy (h : HashState) :
    h.rounds.whashCopy =
      (h.k.toList.zip h.ws.toList).foldl (fun v kw => roundVector kw.1 kw.2 v) h.whashCopy := by
  have consumed := fold_index_induction
    (fun n (g : HashState) => g.k = h.k ∧ g.ws = h.ws ∧ g.whashCopy =
      ((h.k.toList.zip h.ws.toList).take n).foldl (fun v kw => roundVector kw.1 kw.2 v) h.whashCopy)
    (n := 64) (fun t ht g => HashState.round ⟨t, ht⟩ g) (m := h) ⟨rfl, rfl, rfl⟩ ?_
  · rw [HashState.rounds_eq, consumed.2.2, List.take_of_length_le (by simp)]
  · rintro t ht g ⟨hk, hws, hv⟩
    refine ⟨by rw [HashState.round_k, hk], by rw [HashState.round_ws, hws], ?_⟩
    rw [HashState.round_whashCopy, hk, hws, hv, List.take_succ_eq_append_getElem (by simpa using ht),
      List.foldl_append]
    simp

/-- One absorption is one use of the compression function (R140, R157). -/
theorem HashState.absorb_whash (b : Vector Byte 64) (h : HashState) (hk : h.k = K) :
    (h.absorb b).whash = compressOf h.whash (wordsOf b.toList) := by
  have hsched : (h.loadBlk b).sched.ws.toList = scheduleOf (wordsOf b.toList) := by
    rw [toList_eq_scheduleOf (h.loadBlk b).isSchedule_sched, HashState.loadBlk_data]
    exact congrArg scheduleOf (toList_bytesToWordsBE (n := 16) b)
  rw [HashState.absorb_eq, HashState.count_whash, HashState.compress, HashState.feedFwd_whash,
    HashState.rounds_whash, HashState.rounds_whashCopy]
  simp only [HashState.copy_k, HashState.copy_ws, HashState.copy_whash, HashState.copy_whashCopy, HashState.sched_k,
    HashState.sched_whash, HashState.loadBlk_k, HashState.loadBlk_whash, hk, hsched, compressOf]

end Sys2Proof.Machine
end

section
/-! PROOFS. HASH stores the digest written over lists: chaining, padding, serialization (R2, R24, R175, R181, R195). -/

namespace Sys2Proof.Machine

open Sys2Proof.Safety

/-! ### Chaining over lists (R24) -/

theorem chainOf_add (a b : Nat) (l : List Byte) (v : Vector Word 8) :
    chainOf (a + b) l v = chainOf b (l.drop (64 * a)) (chainOf a l v) := by
  induction a generalizing l v with
  | zero => simp [chainOf]
  | succ a ih =>
    rw [Nat.succ_add, chainOf, ih, chainOf, List.drop_drop, Nat.mul_succ, Nat.add_comm 64]

theorem chainOf_one (l : List Byte) (v : Vector Word 8) : chainOf 1 l v = compressOf v (wordsOf (l.take 64)) := rfl

theorem toList_memRead_part (m : Memory) (addr n i k : Nat) (h : i + k ≤ n) :
    (memRead m (addr + i) k).toList = ((bytesAt m addr n).drop i).take k := by
  refine List.ext_getElem (by simp [bytesAt]; omega) fun j hj _ => ?_
  simp only [Vector.length_toList] at hj
  simp [bytesAt, Nat.add_assoc]

/-- Absorbing blocks of MEM chains the blocks of any byte string that begins with their bytes (R159). -/
theorem absorbedFrom_whash (m : Memory) (src n : Nat) {h : HashState} (hk : h.k = K) {l : List Byte}
    (hl : bytesAt m src (64 * n) <+: l) : (absorbedFrom m src n h).whash = chainOf n l h.whash := by
  obtain ⟨rest, rfl⟩ := hl
  have hlen : (bytesAt m src (64 * n)).length = 64 * n := by simp [bytesAt]
  suffices key : ∀ i ≤ n, (absorbedFrom m src i h).whash = chainOf i (bytesAt m src (64 * n) ++ rest) h.whash from
    key n (Nat.le_refl n)
  intro i hi
  induction i with
  | zero => rw [absorbedFrom_zero, chainOf]
  | succ i ih =>
    rw [absorbedFrom_succ, HashState.absorb_whash _ _ (by rw [absorbedFrom_k, hk]), ih (by omega), chainOf_add,
      chainOf_one, toList_memRead_part m src (64 * n) (64 * i) 64 (by omega), List.drop_append_of_le_length (by omega),
      List.take_append_of_le_length (by rw [List.length_drop]; omega)]

/-! ### The padded region as a list (R175, R181) -/

/-- The padded region: the remainder, `0x80`, zeros, and the 8 bytes of the length. -/
theorem take_padScratch {len : Nat} (hl : len < 64) (d : Vector Byte len) (c : Word) :
    (padScratch d c).toList.take (paddedSize len) =
      d.toList ++ [0x80] ++ List.replicate (paddedSize len - 9 - len) 0 ++
        (be64Bytes (lengthBits c len)).toList := by
  have hsize : len + 9 ≤ paddedSize len ∧ paddedSize len ≤ 128 := by
    unfold paddedSize padBlocks; split <;> omega
  refine List.ext_getElem (by simp; omega) fun i hi _ => ?_
  simp only [List.length_take, Vector.length_toList] at hi
  rw [List.getElem_take, Vector.getElem_toList, getElem_padScratch hl d c i (by omega)]
  simp only [List.getElem_append, List.length_append, List.length_cons, List.length_nil, List.length_replicate,
    Vector.length_toList, List.getElem_replicate, List.getElem_singleton, Vector.getElem_toList]
  by_cases h1 : i < len
  · rw [dif_pos h1, dif_pos (by omega), dif_pos (by omega), dif_pos h1]
  · rw [dif_neg h1]
    by_cases h2 : i = len
    · rw [if_pos h2, dif_pos (by omega), dif_pos (by omega), dif_neg h1]
    · rw [if_neg h2]
      by_cases h3 : paddedSize len - 8 ≤ i
      · rw [dif_pos (by omega), dif_neg (by omega)]
        congr 1
        omega
      · rw [dif_neg (by omega), dif_pos (by omega), dif_neg (by omega)]

theorem toList_padBlock (p : Vector Byte 128) (i : Fin 2) :
    (padBlock p i).toList = (p.toList.drop (64 * i.val)).take 64 := by
  refine List.ext_getElem (by simp; omega) fun j hj _ => ?_
  simp [padBlock]

/-- The finalization chains the one or two blocks of the padded region (R178). -/
theorem finalizedFrom_whash (m : Memory) (src len : Nat) {h : HashState} (hk : h.k = K) :
    (finalizedFrom m src len h).whash =
      chainOf (padBlocks len) ((padScratch (memRead m src len) h.counter).toList.take (paddedSize len)) h.whash := by
  rw [finalizedFrom_eq]
  generalize padScratch (memRead m src len) h.counter = p
  have hfirst : (p.toList.take (paddedSize len)).take 64 = (padBlock p 0).toList := by
    have : 64 ≤ paddedSize len := by unfold paddedSize padBlocks; split <;> omega
    rw [toList_padBlock, List.take_take, Nat.min_eq_left this]
    rfl
  by_cases hl : len < 56
  · rw [if_pos hl, HashState.absorb_whash _ _ hk, show padBlocks len = 1 from if_pos hl, chainOf_one, hfirst]
  · have hsecond : ((p.toList.take (paddedSize len)).drop 64).take 64 = (padBlock p 1).toList := by
      rw [show paddedSize len = 128 by simp [paddedSize, padBlocks, hl], toList_padBlock,
        List.drop_take, List.take_take]
      rfl
    rw [if_neg hl, HashState.absorb_whash _ _ (by rw [HashState.absorb_k, hk]), HashState.absorb_whash _ _ hk,
      show padBlocks len = 1 + 1 from if_neg hl, chainOf_add, chainOf_one, chainOf_one, hfirst, hsecond]

/-- The bit length of the whole message, from a counter that has counted its full blocks without overflow (R177). -/
theorem lengthBits_fullBlocks {n : Nat} (hn : n < 2 ^ 32) (r : Nat) :
    lengthBits (BitVec.ofNat 32 n) r = BitVec.ofNat 64 (8 * (64 * n + r)) := by
  apply BitVec.eq_of_toNat_eq
  simp only [lengthBits, BitVec.toNat_mul, BitVec.toNat_add, BitVec.toNat_setWidth, BitVec.toNat_ofNat,
    BitVec.ofNat_eq_ofNat]
  omega

/-- The padded message is the full blocks of the message and then the padded region of its remainder (R181). -/
theorem paddedMessage_eq (l : List Byte) {n r : Nat} (hl : l.length = 64 * n + r) (hr : r < 64) (hn : n < 2 ^ 32)
    (d : Vector Byte r) (hd : d.toList = l.drop (64 * n)) :
    paddedMessage l =
      l.take (64 * n) ++ (padScratch d (BitVec.ofNat 32 n)).toList.take (paddedSize r) := by
  have hzeros : (119 - l.length % 64) % 64 = paddedSize r - 9 - r := by
    rw [hl]; unfold paddedSize padBlocks; split <;> omega
  rw [take_padScratch hr, hd, lengthBits_fullBlocks hn, paddedMessage, hzeros, hl]
  simp only [← List.append_assoc, List.take_append_drop]

/-- How many blocks the padded message has (R176, R181). -/
theorem length_paddedMessage {l : List Byte} {n r : Nat} (hl : l.length = 64 * n + r) (hr : r < 64) :
    (paddedMessage l).length / 64 = n + padBlocks r := by
  simp only [paddedMessage, List.length_append, List.length_cons, List.length_nil, List.length_replicate,
    Vector.length_toList, hl]
  unfold padBlocks
  split <;> omega

/-! ### HASH (R195) -/

/-- The `whash` that HASH leaves is the chaining value of the padded message (R181, R195). -/
theorem hashAfter_hash_whash (s : State) (hlen : s.len ≤ hashLimit) :
    (hashAfter s .hash).whash =
      chainOf ((paddedMessage (bytesAt s.mem s.src s.len)).length / 64) (paddedMessage (bytesAt s.mem s.src s.len))
        H0 := by
  simp only [hashAfter]
  generalize hn : s.len / 64 = n
  generalize hr : s.len % 64 = r
  have hnr : s.len = 64 * n + r := by omega
  have hn32 : n < 2 ^ 32 := by unfold hashLimit at hlen; omega
  set l := bytesAt s.mem s.src s.len with hl
  have hllen : l.length = 64 * n + r := by rw [hl, bytesAt, Vector.length_toList, hnr]
  have hfull : bytesAt s.mem s.src (64 * n) = l.take (64 * n) := by
    simpa [bytesAt, hl] using toList_memRead_part s.mem s.src s.len 0 (64 * n) (by omega)
  have hrest : (memRead s.mem (s.src + 64 * n) r).toList = l.drop (64 * n) := by
    rw [toList_memRead_part s.mem s.src s.len (64 * n) r (by omega), ← hl,
      List.take_of_length_le (by rw [List.length_drop]; omega)]
  have hpadded := paddedMessage_eq l hllen (by omega) hn32 _ hrest
  have hblocks : (absorbedFrom s.mem s.src n s.hash.load).whash = chainOf n (paddedMessage l) H0 :=
    absorbedFrom_whash s.mem s.src n (HashState.load_k _) ⟨_, by rw [hfull, hpadded]⟩
  have hregion : (padScratch (memRead s.mem (s.src + 64 * n) r) (BitVec.ofNat 32 n)).toList.take (paddedSize r) =
      (paddedMessage l).drop (64 * n) := by
    rw [hpadded, List.drop_left' (by rw [List.length_take]; omega)]
  rw [finalizedFrom_whash _ _ _ (by rw [absorbedFrom_k, HashState.load_k]), absorbedFrom_counter,
    HashState.load_counter, zero_add, hblocks, hregion, ← chainOf_add, length_paddedMessage hllen (by omega)]

/-- An accepted HASH leaves at DST the bytes of the `whash` it leaves (R180, R195). -/
theorem bytesAt_dst_of_hash {s t : State} (hwf : s.mem.wf = true) (hv : verdict .hash s = .accepted)
    (he : exec .hash s = .next t) : bytesAt t.mem s.dst 32 = bytesOf (hashAfter s .hash).whash.toList := by
  have hmem : t.mem = memWrite s.mem s.dst (wordsToBytesBE (hashAfter s .hash).whash) := by
    rw [exec_of_accepted hv] at he
    rw [← Host.Outcome.next.inj he, toIdle_mem, effectOf_mem, memAfter]
  rw [hmem, bytesAt, memRead_memWrite (n := 32) hwf, ← toList_wordsToBytesBE]

/-- Settles O32: the stored bytes are those of the `whash` that HASH leaves, which is the chaining value of the padded
message. -/
theorem hashStoresReferenceDigest : Obligations.HashStoresReferenceDigest := by
  intro s t hwf hv he
  obtain ⟨-, hlen, -⟩ := (verdict_hash s).mp hv
  rw [bytesAt_dst_of_hash hwf hv he, hashAfter_hash_whash s hlen, digestOf]

end Sys2Proof.Machine
end

section
/-! PROOFS. The invariants of the hash state, of the fields that hold a value and of STATUS (R30, R35, R38, R133). -/

namespace Sys2Proof.Machine

open Sys2Proof.Safety

/-- A property of the hash state, of the fields that hold a value and of STATUS holds after every step when accepted
commands, the recording of a first fault and reset keep it: no other action touches the three. -/
theorem step_keeps_engine (P : HashState → Held → Status → Prop)
    (command : ∀ i s, P s.hash s.held s.status → verdict i s = .accepted →
      P (hashAfter s i) (heldAfter s i) (statusAfter s i))
    (refused : ∀ h f st code, code ≠ FaultCode.eNone → P h f st → P h f { st with err := code, fault := true })
    (reset : P HashState.reset Held.reset Status.reset) :
    ∀ s t, P s.hash s.held s.status → step s = .next t → P t.hash t.held t.status := by
  refine step_keeps (fun s => P s.hash s.held s.status) (fun _ _ h => h) ?command (fun _ h => by simpa using h) ?refused
    (fun _ _ h => h) (fun _ _ h => by simpa using h) (fun _ h => by simpa using h) (fun _ _ _ _ h => h)
    (fun _ _ => by simpa using reset) (fun _ _ _ _ h _ _ => h) (fun _ _ h => by simpa using h)
  case command =>
    intro i s h hv
    simpa using command i s h hv
  case refused =>
    intro code s hc h
    rw [raiseFault_hash, raiseFault_held, raiseFault_status]
    split
    · exact h
    · exact refused _ _ _ code hc h

/-! ### The counter, while it has room (R160) -/

theorem toNat_counter_add {c : Word} {n : Nat} (h : c.toNat + n < 2 ^ 32) :
    (c + BitVec.ofNat 32 n).toNat = c.toNat + n := by
  rw [BitVec.toNat_add, BitVec.toNat_ofNat]
  omega

theorem HashState.toNat_absorb_counter (b : Vector Byte 64) (h : HashState) (hroom : h.counter.toNat + 1 < 2 ^ 32) :
    (h.absorb b).counter.toNat = h.counter.toNat + 1 := by
  rw [HashState.absorb_counter]
  exact toNat_counter_add hroom

theorem toNat_absorbedFrom_counter (m : Memory) (src : Nat) {n : Nat} (h : HashState)
    (hroom : h.counter.toNat + n < 2 ^ 32) : (absorbedFrom m src n h).counter.toNat = h.counter.toNat + n := by
  rw [absorbedFrom_counter, toNat_counter_add hroom]

theorem toNat_finalizedFrom_counter (m : Memory) (src : Nat) {len : Nat} (h : HashState)
    (hroom : h.counter.toNat + padBlocks len < 2 ^ 32) :
    (finalizedFrom m src len h).counter.toNat = h.counter.toNat + padBlocks len := by
  rw [finalizedFrom_counter, toNat_counter_add hroom]

/-- Settles O40: an accepted command found room in the counter for the blocks it adds; a refused one adds none. -/
theorem counterNeverWraps : Obligations.CounterNeverWraps := by
  intro i s t h hinit hhash
  rcases exec_cases h with ⟨hv, rfl⟩ | ⟨-, rfl⟩ | ⟨code, -, rfl⟩
  · rw [toIdle_hash, effectOf_hash]
    cases i with
    | init => exact absurd rfl hinit
    | update =>
      obtain ⟨-, -, -, hroom, -⟩ := (verdict_update s).mp hv
      rw [hashAfter, HashState.toNat_absorb_counter _ _ (by omega)]
      omega
    | updateMulti =>
      obtain ⟨-, -, -, hroom, -⟩ := (verdict_updateMulti s).mp hv
      rw [hashAfter, toNat_absorbedFrom_counter _ _ _ (by omega)]
      omega
    | updateLast =>
      obtain ⟨-, -, -, -, -, hroom, -⟩ := (verdict_updateLast s).mp hv
      rw [hashAfter, toNat_finalizedFrom_counter _ _ _ (by omega)]
      omega
    | finish => exact Nat.le_refl _
    | hash => exact absurd rfl hhash
  · rw [toIdle_hash]
  · rw [raiseFault_hash]

/-! ### What commands keep of the hash state -/

/-- INIT and HASH load `K`, and nothing else writes `k` (R21, R145). -/
theorem hashAfter_k (s : State) (i : Instr) :
    (hashAfter s i).k = if i = .init ∨ i = .hash then K else s.hash.k := by
  cases i <;> simp [hashAfter]

theorem HashState.isSchedule_absorb (b : Vector Byte 64) (h : HashState) :
    IsSchedule (h.absorb b).data (h.absorb b).ws := by
  rw [HashState.absorb_data, HashState.absorb_ws]
  exact (h.loadBlk b).isSchedule_sched

theorem isSchedule_absorbedFrom (m : Memory) (src : Nat) {n : Nat} (hn : n ≠ 0) (h : HashState) :
    IsSchedule (absorbedFrom m src n h).data (absorbedFrom m src n h).ws := by
  obtain ⟨n, rfl⟩ := Nat.exists_eq_succ_of_ne_zero hn
  rw [absorbedFrom_succ]
  exact HashState.isSchedule_absorb _ _

theorem isSchedule_finalizedFrom (m : Memory) (src len : Nat) (h : HashState) :
    IsSchedule (finalizedFrom m src len h).data (finalizedFrom m src len h).ws := by
  rw [finalizedFrom_eq]
  split <;> exact HashState.isSchedule_absorb _ _

/-! ### STATUS, the fields that hold a value, the constants, the schedule -/

/-- Settles O53: only a refusal sets ERR, and it sets FAULT with it; an accepted command leaves INIT_DONE = 1. -/
theorem stepKeepsStatus : Obligations.StepKeepsStatus := by
  refine step_keeps_engine
    (fun _ _ st => (st.fault = false ↔ st.err = .eNone) ∧ (st.final = true → st.initDone = true)) ?_ ?_ ?_
  · intro i s ⟨herr, _⟩ hv
    refine ⟨?_, fun _ => statusAfter_initDone hv⟩
    cases i with
    | init | hash => simp [statusAfter, statusAfterInit]
    | update | updateMulti | updateLast | finish => exact herr
  · rintro _ _ st code hc ⟨-, hfinal⟩
    exact ⟨by simp [hc], hfinal⟩
  · simp [Status.reset]

/-- Settles O54: an absorption writes `data`, `ws` and `whash_copy` together, and only an initialised session absorbs. -/
theorem stepKeepsHeld : Obligations.StepKeepsHeld := by
  intro s t
  refine step_keeps_engine (fun _ f st => f.k = st.initDone ∧ f.whash = st.initDone ∧ f.counter = st.initDone ∧
    f.ws = f.data ∧ f.whashCopy = f.data ∧ (f.data = true → st.initDone = true) ∧ (st.final = true → f.data = true))
    ?_ ?_ ?_ s t
  · intro i s h hv
    have hinit := initDone_of_accepted hv
    have ⟨hk, _, _, hws, hcopy, _, _⟩ := h
    cases i with
    | init => simp [heldAfter, statusAfter, statusAfterInit, hws, hcopy]
    | update | updateLast => simp [heldAfter, statusAfter, hk, hinit]
    | updateMulti =>
      by_cases hn : s.len = 0
      · simpa [heldAfter, statusAfter, hn] using h
      · simp [heldAfter, statusAfter, hn, hk, hinit]
    | finish => exact h
    | hash => simp [heldAfter, statusAfter]
  · exact fun _ _ _ _ _ h => h
  · simp [Held.reset, Status.reset]

/-- Settles O55: an accepted command loads `K`, or finds it there because INIT_DONE was 1 before it. -/
theorem stepKeepsConstants : Obligations.StepKeepsConstants := by
  refine step_keeps_engine (fun h _ st => st.initDone = true → h.k = K) ?_ ?_ ?_
  · intro i s hk hv _
    rw [hashAfter_k]
    split
    · rfl
    · rename_i hi
      exact hk (initDone_of_accepted hv (fun h => hi (.inl h)) fun h => hi (.inr h))
  · exact fun _ _ _ _ _ h => h
  · simp [Status.reset]

/-- Settles O56: an absorption leaves a schedule, and a command without one leaves `data` and `ws`. -/
theorem stepKeepsSchedule : Obligations.StepKeepsSchedule := by
  refine step_keeps_engine (fun h f _ => f.ws = true → IsSchedule h.data h.ws) ?_ ?_ ?_
  · intro i s h _
    cases i with
    | init => simpa [heldAfter, hashAfter] using h
    | update => exact fun _ => HashState.isSchedule_absorb _ _
    | updateMulti =>
      by_cases hn : s.len = 0
      · simpa [heldAfter, hashAfter, hn] using h
      · exact fun _ => isSchedule_absorbedFrom _ _ hn _
    | updateLast | hash => exact fun _ => isSchedule_finalizedFrom _ _ _ _
    | finish => exact h
  · exact fun _ _ _ _ _ h => h
  · simp [Held.reset]

/-- Settles O58: a command, accepted or refused, and a reset end in IDLE, and nothing else moves the sequencer. -/
theorem stepKeepsSequencerIdle : Obligations.StepKeepsSequencerIdle := by
  exact step_keeps SeqOk (fun _ _ h => h) (fun _ _ _ _ => toIdle_seq _) (fun _ _ => toIdle_seq _)
    (fun _ _ _ _ => raiseFault_seq _ _) (fun _ _ h => h) (fun _ _ h => h) (fun _ h => h) (fun _ _ _ _ h => h)
    (fun _ _ => engineReset_seq _) (fun _ _ _ _ h _ _ => h) (fun _ _ h => h)

/-- Settles O51: nothing is listed in MEM, no flag of STATUS is set and no field holds a value. -/
theorem resetMeetsInvariants : Obligations.ResetMeetsInvariants := by
  refine ⟨⟨rfl, by simp [State.reset]⟩, ⟨by decide, by decide⟩, ?_, ?_, ?_, ?_, rfl, by decide⟩
  · simp [HeldOk, State.reset, Held.reset, Status.reset]
  · simp [ConstantsOk, State.reset, Status.reset]
  · simp [ScheduleOk, State.reset, Held.reset]
  · simp [ChainOk, State.reset, Status.reset]

/-! ### The chain (R24, R26, R35(4)) -/

/-- `whash` is the chaining value, from `H0`, of `counter` many blocks, with `K` as the round constants. -/
def HashState.IsChain (h : HashState) : Prop :=
  h.k = K ∧ ∃ blocks : List (Vector Byte 64), blocks.length = h.counter.toNat ∧
    h.whash = blocks.foldl (fun v b => compressOf v (wordsOf b.toList)) H0

/-- With `K` in `k`, an absorption of the engine is one use of the compression function. -/
theorem chainOk_iff (s : State) : ChainOk s ↔ (s.status.initDone = true → s.hash.IsChain) := by
  refine forall_congr' fun _ => and_congr_right fun hk => ?_
  have hstep : (fun v (b : Vector Byte 64) => (HashState.absorb b { s.hash with whash := v }).whash) =
      fun v b => compressOf v (wordsOf b.toList) :=
    funext₂ fun v b => HashState.absorb_whash b { s.hash with whash := v } hk
  rw [hstep]

theorem HashState.isChain_load (h : HashState) : h.load.IsChain :=
  ⟨HashState.load_k h, [], by simp, by simp⟩

/-- One more block is one more link of the chain, while the counter has room. -/
theorem HashState.IsChain.absorb {h : HashState} (hc : h.IsChain) (b : Vector Byte 64)
    (hroom : h.counter.toNat + 1 < 2 ^ 32) : (h.absorb b).IsChain := by
  obtain ⟨hk, blocks, hlen, hwhash⟩ := hc
  refine ⟨by rw [HashState.absorb_k, hk], blocks ++ [b], ?_, ?_⟩
  · rw [HashState.toNat_absorb_counter b h hroom, List.length_append, hlen]
    rfl
  · rw [HashState.absorb_whash b h hk, hwhash, List.foldl_append]
    rfl

theorem HashState.IsChain.absorbedFrom {h : HashState} (hc : h.IsChain) (m : Memory) (src n : Nat)
    (hroom : h.counter.toNat + n < 2 ^ 32) : (absorbedFrom m src n h).IsChain := by
  induction n with
  | zero => rwa [absorbedFrom_zero]
  | succ n ih =>
    rw [absorbedFrom_succ]
    refine (ih (by omega)).absorb _ ?_
    rw [toNat_absorbedFrom_counter m src h (by omega)]
    omega

theorem HashState.IsChain.finalizedFrom {h : HashState} (hc : h.IsChain) (m : Memory) (src len : Nat)
    (hroom : h.counter.toNat + padBlocks len < 2 ^ 32) : (finalizedFrom m src len h).IsChain := by
  rw [finalizedFrom_eq]
  unfold padBlocks at hroom
  by_cases hl : len < 56
  · rw [if_pos hl] at hroom ⊢
    exact hc.absorb _ hroom
  · rw [if_neg hl] at hroom ⊢
    refine (hc.absorb _ (by omega)).absorb _ ?_
    rw [HashState.toNat_absorb_counter _ _ (by omega)]
    omega

/-- An accepted command leaves a chain: it starts one, or the counter has room for the blocks it adds to one (R160,
R196). -/
theorem isChain_hashAfter {i : Instr} {s : State} (hv : verdict i s = .accepted)
    (hc : s.status.initDone = true → s.hash.IsChain) : (hashAfter s i).IsChain := by
  cases i with
  | init => exact s.hash.isChain_load
  | update =>
    obtain ⟨-, hinit, -, hroom, -⟩ := (verdict_update s).mp hv
    exact (hc hinit).absorb _ (by omega)
  | updateMulti =>
    obtain ⟨-, hinit, -, hroom, -⟩ := (verdict_updateMulti s).mp hv
    exact (hc hinit).absorbedFrom _ _ _ (by omega)
  | updateLast =>
    obtain ⟨-, hinit, -, -, -, hroom, -⟩ := (verdict_updateLast s).mp hv
    exact (hc hinit).finalizedFrom _ _ _ (by omega)
  | finish => exact hc (initDone_of_accepted hv (by decide) (by decide))
  | hash =>
    obtain ⟨-, hlen, -⟩ := (verdict_hash s).mp hv
    have hzero : s.hash.load.counter.toNat = 0 := by rw [HashState.load_counter]; rfl
    refine (s.hash.isChain_load.absorbedFrom _ _ _ (by omega)).finalizedFrom _ _ _ ?_
    rw [toNat_absorbedFrom_counter _ _ _ (by omega), hzero]
    unfold padBlocks
    split <;> omega

/-- Settles O57: the chain grows by the blocks of each accepted command, whose counter has room for them. -/
theorem stepKeepsChain : Obligations.StepKeepsChain := by
  intro s t hs hstep
  rw [chainOk_iff] at hs ⊢
  exact step_keeps_engine (fun h _ st => st.initDone = true → h.IsChain)
    (fun _ _ h hv _ => isChain_hashAfter hv h) (fun _ _ _ _ _ h => h) (by simp [Status.reset]) s t hs hstep

end Sys2Proof.Machine
end

section
/-! PROOFS. Command words, what commands leave alone, and which actions clear a flag (R27, R30, R80, R81). -/

namespace Sys2Proof.Machine

open Sys2Proof.Safety

/-! ### Command words (R80, R92) -/

theorem zeroField_append_opcodeField (c : Word) : (zeroField c ++ opcodeField c : BitVec 32) = c := by
  refine BitVec.eq_of_getLsbD_eq fun i hi => ?_
  rw [BitVec.getLsbD_append, zeroField, opcodeField]
  by_cases h : i < 8
  · simp [h]
  · simp only [h, if_false, BitVec.getLsbD_extractLsb', show 8 + (i - 8) = i by omega]
    simp; omega

/-- A word that decodes to a command is that command's encoding. -/
theorem eq_encode_of_decode {c : Word} {i : Instr} (h : decode c = .ok i) : c = encode i := by
  have fields : zeroField c = 0 ∧ opcodeField c = opcodeOf i := by
    unfold decode at h
    split at h
    · cases h
    · rename_i hzero
      refine ⟨not_not.mp hzero, ?_⟩
      repeat'
        split at h
        · cases h
          assumption
      cases h
  rw [encode, ← fields.1, ← fields.2, zeroField_append_opcodeField]

/-! ### A step at a write to CMD -/

theorem step_of_host {s : State} {a : HostAction} {rest : List HostAction} (h : s.host = a :: rest) :
    step s = perform a { s with host := rest } := by
  unfold step nextAction
  rw [h]

theorem commandWrite_of_ok {c : Word} {i : Instr} (h : decode c = .ok i) (s : State) :
    commandWrite c s = exec i s := by
  unfold commandWrite
  rw [h]

theorem registerWrite_cmd (c : Word) (s : State) : registerWrite 0x000 c s = commandWrite c s := rfl

/-- Settles O4: register number 0 is CMD, and a legal word there runs its command. -/
theorem stepRunsDecodedCommand : Obligations.StepRunsDecodedCommand := by
  intro s c i rest hh hd
  rw [step_of_host hh, perform, registerWrite_cmd, commandWrite_of_ok hd]

/-! ### Flags (R30) -/

/-- A command that clears FAULT is INIT or HASH: the others are refused while FAULT = 1, and a refusal clears nothing
(R222). -/
theorem clears_fault {i : Instr} {s t : State} (h : exec i s = .next t) (hs : s.status.fault = true)
    (ht : t.status.fault = false) : i = .init ∨ i = .hash := by
  rcases exec_cases h with ⟨hv, -⟩ | ⟨-, rfl⟩ | ⟨code, -, rfl⟩
  · have refused {p : Prop} (hf : s.status.fault = false) : p := absurd hf (by simp [hs])
    cases i with
    | init => exact .inl rfl
    | update => exact refused ((verdict_update s).mp hv).1
    | updateMulti => exact refused ((verdict_updateMulti s).mp hv).1
    | updateLast => exact refused ((verdict_updateLast s).mp hv).1
    | finish => exact refused ((verdict_finish s).mp hv).1
    | hash => exact .inr rfl
  · simp [hs] at ht
  · simp at ht

/-- No command clears INIT_DONE. -/
theorem exec_keeps_initDone {i : Instr} {s t : State} (h : exec i s = .next t) (hs : s.status.initDone = true) :
    t.status.initDone = true := by
  rcases exec_cases h with ⟨hv, rfl⟩ | ⟨-, rfl⟩ | ⟨code, -, rfl⟩
  · rw [toIdle_status, effectOf_status, statusAfter_initDone hv]
  · rw [toIdle_status, hs]
  · rw [raiseFault_initDone, hs]

/-- A step that changes STATUS, and is no reset, is a command or the refusal of an illegal word. -/
theorem step_status_cases {s t : State} (h : step s = .next t) :
    t.status = s.status ∨ Resets s ∨
      (∃ c i s', WritesCommand s c ∧ decode c = .ok i ∧ s'.status = s.status ∧ exec i s' = .next t) ∨
      ∃ s', s'.status = s.status ∧ t = raiseFault .eIllegal s' := by
  rcases step_cases h with ⟨-, rfl⟩ | ⟨a, rest, hh, effect⟩
  · exact .inl rfl
  cases effect with
  | command c i hw hd hr =>
    refine .inr (.inr (.inl ⟨c, i, { s with host := rest }, ⟨rest, ?_⟩, hd, rfl, hr⟩))
    rcases hw with rfl | rfl
    · exact .inl hh
    · exact .inr hh
  | illegal e => exact .inr (.inr (.inr ⟨{ s with host := rest }, rfl, e⟩))
  | reset ha _ => exact .inr (.inl ⟨rest, .inl (by rw [hh, ha])⟩)
  | resetDuring c _ ha _ _ => exact .inr (.inl ⟨rest, .inr ⟨c, by rw [hh, ha]⟩⟩)
  | write _ e | read _ e | readFree e | store _ _ _ e | setAdmit _ _ e => subst e; exact .inl (by simp)

/-- Settles O10: the only commands that clear FAULT are INIT and HASH, and the word that runs one is its encoding. -/
theorem onlyInitHashResetClearFault : Obligations.OnlyInitHashResetClearFault := by
  intro s t h hs ht
  rcases step_status_cases h with hst | hreset | ⟨c, i, s', hw, hd, hst, hr⟩ | ⟨s', hst, rfl⟩
  · simp [hst, hs] at ht
  · exact .inl hreset
  · rw [eq_encode_of_decode hd] at hw
    rcases clears_fault hr (by rw [hst, hs]) ht with rfl | rfl
    · exact .inr (.inl hw)
    · exact .inr (.inr hw)
  · simp at ht

/-- Settles O11: an accepted command leaves INIT_DONE = 1, and a refusal leaves INIT_DONE as it was. -/
theorem onlyResetClearsInitDone : Obligations.OnlyResetClearsInitDone := by
  intro s t h hs ht
  rcases step_status_cases h with hst | hreset | ⟨c, i, s', -, -, hst, hr⟩ | ⟨s', hst, rfl⟩
  · simp [hst, hs] at ht
  · exact hreset
  · rw [exec_keeps_initDone hr (by rw [hst, hs])] at ht
    cases ht
  · simp [hst, hs] at ht

/-! ### Operand registers and surroundings (R27) -/

/-- Settles O36: an accepted command changes the hash state, its flags, STATUS and MEM alone, a refused one STATUS. -/
theorem commandsKeepSurroundings : Obligations.CommandsKeepSurroundings := by
  intro i s t h
  rcases exec_cases h with ⟨-, rfl⟩ | ⟨-, rfl⟩ | ⟨code, -, rfl⟩
  all_goals simp [SameSurroundings]

/-- A command whose verdict and effect do not depend on a change of the operand registers runs alike under it. -/
theorem exec_withOperands {i : Instr} {s t : State} {src dst len src' dst' len' : BitVec 64}
    (hv : verdict i (withOperands src' dst' len' s) = verdict i (withOperands src dst len s))
    (he : effectOf i (withOperands src' dst' len' s) =
      withOperands src' dst' len' (effectOf i (withOperands src dst len s)))
    (h : exec i (withOperands src dst len s) = .next t) :
    exec i (withOperands src' dst' len' s) = .next (withOperands src' dst' len' t) := by
  rw [exec_eq_conclude, hv]
  rcases exec_cases h with ⟨hv, rfl⟩ | ⟨hv, rfl⟩ | ⟨code, hv, rfl⟩ <;> rw [hv]
  · rw [conclude, he]
    rfl
  · rfl
  · simp only [conclude, raiseFault, withOperands_status]
    split <;> rfl

/-- Settles O39: the checks and the effect of each command look at the operands it uses and at no other. -/
theorem unusedOperandsAreIgnored : Obligations.UnusedOperandsAreIgnored := by
  intro s t src dst len src' dst' len'
  refine ⟨exec_withOperands rfl rfl, exec_withOperands ?_ ?_, exec_withOperands ?_ ?_, exec_withOperands ?_ ?_,
    exec_withOperands ?_ ?_⟩
  · simp [verdict, acceptanceChecks, notFaulted, initialised, notFinal, counterRoom, admitted]
  · simp only [effectOf, updateState, src_withOperands]
    rfl
  · simp [verdict, acceptanceChecks, notFaulted, initialised, notFinal, counterRoom, admitted]
  · simp only [effectOf, updateMultiState, absorbBlocks_spec, src_withOperands, len_withOperands]
    rfl
  · simp [verdict, acceptanceChecks, notFaulted, initialised, notFinal, counterRoom, lengthBelow, admitted]
  · simp only [effectOf, updateLastState, absorbLast_spec, src_withOperands, len_withOperands]
    rfl
  · simp [verdict, acceptanceChecks, notFaulted, initialised, admitted]
  · simp only [effectOf, finishState, dst_withOperands]
    rfl

end Sys2Proof.Machine
end

section
/-! PROOFS. The register space as the host reads and writes it, and what reset leaves there (R29 to R34, R38, R240). -/

namespace Sys2Proof.Machine

open Sys2Proof.Safety

/-! ### The register map (R29) -/

theorem registerAt_registerNumber (r : RegName) : registerAt (registerNumber r) = some r := by
  cases r with
  | cmd | status | srcLo | srcHi | dstLo | dstHi | lenLo | lenHi | counter => rfl
  | k i => exact registerAt_k i.isLt
  | data i => exact registerAt_data i.isLt
  | ws i => exact registerAt_ws i.isLt
  | whash i => exact registerAt_whash i.isLt
  | whashCopy i => exact registerAt_whashCopy i.isLt

theorem registerAt_eq_none_iff {n : Nat} : registerAt n = none ↔ (0x008 ≤ n ∧ n ≤ 0x0FF) ∨ 0x1A1 ≤ n := by
  constructor
  · intro h
    by_contra hn
    obtain ⟨r, rfl⟩ := exists_registerNumber (n := n) (by unfold controlRegs windowFirst windowEnd; omega)
    simp [registerAt_registerNumber] at h
  · rintro (⟨hlo, hhi⟩ | h)
    · exact registerAt_low hlo hhi
    · exact registerAt_high h

theorem registerAt_eq_some_iff {n : Nat} {r : RegName} : registerAt n = some r ↔ registerNumber r = n := by
  constructor
  · intro h
    have named : ∃ q, registerNumber q = n := by
      refine exists_registerNumber ?_
      by_contra hn
      rw [registerAt_eq_none_iff.mpr (by unfold controlRegs windowFirst windowEnd at hn; omega)] at h
      cases h
    obtain ⟨q, rfl⟩ := named
    rw [registerAt_registerNumber] at h
    rw [Option.some.inj h]
  · rintro rfl
    exact registerAt_registerNumber r

/-- Settles O41: every number outside the reserved ones is the number of a register, and of one only. -/
theorem registerMapIsExact : Obligations.RegisterMapIsExact :=
  ⟨fun _ _ => registerAt_eq_some_iff, fun _ => registerAt_eq_none_iff⟩

/-! ### Register accesses (R31, R33, R34) -/

theorem registerWrite_of_some {n : Nat} {r : RegName} (hr : registerAt n = some r) (hc : r ≠ .cmd) (v : Word)
    (s : State) : registerWrite n v s = .next { s with operands := s.operands.write r v } := by
  unfold registerWrite
  rw [hr]
  cases r with
  | cmd => exact absurd rfl hc
  | _ => rfl

theorem registerWrite_of_none {n : Nat} (hn : registerAt n = none) (v : Word) (s : State) :
    registerWrite n v s = .refused (.reservedRegister n) := by
  unfold registerWrite
  rw [hn]

/-- A read delivers the word of an element that holds a value, and a free value for one that holds none. -/
theorem registerRead_of_some {n : Nat} {r : RegName} (hr : registerAt n = some r) (s : State) :
    registerRead n s =
      .next (if (registerWord r s).1 then deliver (registerWord r s).2 s else deliverFree s) := by
  unfold registerRead
  simp only [hr]
  rcases registerWord r s with ⟨_ | _, w⟩ <;> rfl

theorem registerRead_of_none {n : Nat} (hn : registerAt n = none) (s : State) :
    registerRead n s = .refused (.reservedRegister n) := by
  unfold registerRead
  rw [hn]

/-- STATUS and the STATE window hold no operand. -/
theorem registerWrite_readOnly {n : Nat} (hn : n = 0x001 ∨ 0x100 ≤ n ∧ n ≤ 0x1A0) (v : Word) (s : State) :
    registerWrite n v s = .next s := by
  obtain ⟨r, rfl⟩ := exists_registerNumber (n := n) (by unfold controlRegs windowFirst windowEnd; omega)
  have hr := registerAt_registerNumber r
  cases r with
  | cmd | srcLo | srcHi | dstLo | dstHi | lenLo | lenHi => simp [registerNumber] at hn
  | _ => exact registerWrite_of_some hr (by simp) v s

/-- Settles O42: the register at each number, and what a write to it and a read of it do. -/
theorem registerAccessRules : Obligations.RegisterAccessRules := by
  intro s v
  refine ⟨fun n hn => registerWrite_readOnly hn v s, rfl, rfl, rfl, rfl, rfl, rfl, rfl, rfl, rfl, rfl, rfl, rfl, rfl,
    fun n hn => ?_⟩
  have hnone := registerAt_eq_none_iff.mpr hn
  exact ⟨registerWrite_of_none hnone v s, registerRead_of_none hnone s⟩

/-- Settles O44: the window's registers in the map, each with the flag of its field. -/
theorem stateWindowShowsHashState : Obligations.StateWindowShowsHashState := by
  intro s
  exact ⟨fun _ h => registerRead_of_some (registerAt_k h) s, fun _ h => registerRead_of_some (registerAt_data h) s,
    fun _ h => registerRead_of_some (registerAt_ws h) s, fun _ h => registerRead_of_some (registerAt_whash h) s,
    fun _ h => registerRead_of_some (registerAt_whashCopy h) s, registerRead_of_some registerAt_counter s⟩

/-! ### STATUS (R30, R211) -/

theorem statusWord_toNat (st : Status) :
    (statusWord st).toNat =
      st.err.number.toNat * 2 ^ 8 + st.fault.toNat * 2 ^ 2 + st.final.toNat * 2 + st.initDone.toNat := by
  have := st.fault.toNat_lt
  have := st.final.toNat_lt
  have := st.initDone.toNat_lt
  have := st.err.number.isLt
  simp only [statusWord, BitVec.toNat_append, BitVec.toNat_ofBool]
  rw [← Nat.shiftLeft_add_eq_or_of_lt (by omega), ← Nat.shiftLeft_add_eq_or_of_lt (by omega),
    ← Nat.shiftLeft_add_eq_or_of_lt (by omega), ← Nat.shiftLeft_add_eq_or_of_lt (by omega),
    ← Nat.shiftLeft_add_eq_or_of_lt (by omega)]
  simp only [Nat.shiftLeft_eq, BitVec.ofNat_eq_ofNat, BitVec.toNat_ofNat]
  omega

theorem statusWord_flags (st : Status) :
    (statusWord st).getLsbD 0 = st.initDone ∧ (statusWord st).getLsbD 1 = st.final ∧
      (statusWord st).getLsbD 2 = st.fault := by
  simp only [statusWord, BitVec.getLsbD_append]
  simp

/-- Settles O43: the flags stand in the three low bits, the code in the second byte. -/
theorem statusReadsFlags : Obligations.StatusReadsFlags := by
  intro s
  have := s.status.fault.toNat_lt
  have := s.status.final.toNat_lt
  have := s.status.initDone.toNat_lt
  obtain ⟨hinit, hfinal, hfault⟩ := statusWord_flags s.status
  refine ⟨statusWord s.status, registerRead_of_some registerAt_1 s, hinit, hfinal, hfault, ?_, ?_⟩
  · have hcode : (statusWord s.status).toNat / 2 ^ 8 = s.status.err.number.toNat := by
      rw [statusWord_toNat]
      omega
    rw [hcode]
    cases s.status.err <;> rfl
  · rw [statusWord_toNat]
    omega

/-! ### Bus accesses (R29, R34) -/

/-- Settles O45: the address of a register, a wrong width and a misaligned address, as the bus decodes them. -/
theorem busAccessesReachRegisters : Obligations.BusAccessesReachRegisters := by
  intro s v
  refine ⟨fun i => ?_, fun addr bytes hb => ?_, fun addr hbase hmis => ?_⟩
  · have hreg : busRegister s.platform (s.platform.regBase + 4 * i) 4 = .ok i := busRegister_ok.mpr ⟨rfl, rfl⟩
    simp only [perform, hreg, and_self]
  · have hwidth : busRegister s.platform addr bytes = .error (.registerAccessWidth bytes) := if_pos hb
    simp only [perform, hwidth, and_self]
  · have halign : busRegister s.platform addr 4 = .error (.registerMisaligned addr) := by
      rw [busRegister, if_neg (by simp), if_neg (by omega), if_pos hmis]
    simp only [perform, halign, and_self]

/-! ### Reset (R38, R240) -/

theorem registers_of_reset {t : State} (hst : t.status = Status.reset) (hop : t.operands = OperandRegs.reset) :
    statusWord t.status = 0 ∧ t.src = 0 ∧ t.dst = 0 ∧ t.len = 0 ∧ situation t.status = .uninitialised := by
  unfold State.src State.dst State.len
  rw [hst, hop]
  decide

/-- Settles O49: power-on and a later reset leave the same engine; the later one leaves the rest as it was. -/
theorem resetValues : Obligations.ResetValues := by
  refine ⟨?_, rfl, rfl, fun s rest hh => ⟨engineReset { s with host := rest }, step_of_host hh, ?_,
    engineReset_mem _, engineReset_platform _, engineReset_host _⟩⟩
  · obtain ⟨hword, hsrc, hdst, hlen, hsit⟩ := registers_of_reset (t := State.reset) rfl rfl
    exact ⟨hword, hsrc, hdst, hlen, rfl, rfl, hsit⟩
  · obtain ⟨hword, hsrc, hdst, hlen, hsit⟩ := registers_of_reset (engineReset_status _) (engineReset_operands _)
    exact ⟨hword, hsrc, hdst, hlen, engineReset_seq _, engineReset_held _, hsit⟩

end Sys2Proof.Machine
end

section
/-! PROOFS. No action looks at an element that holds no value: two states that differ only in such elements step alike
(R33, R38, R157, R241). -/

namespace Sys2Proof.Machine

open Sys2Proof.Safety

/-! ### What an absorption depends on (R157) -/

/-- The two hash states agree on what an absorption reads. -/
structure HashState.SameChain (h g : HashState) : Prop where
  k : g.k = h.k
  whash : g.whash = h.whash
  counter : g.counter = h.counter

theorem HashState.eq_of_fields {h g : HashState} (hk : g.k = h.k) (hdata : g.data = h.data) (hws : g.ws = h.ws)
    (hwhash : g.whash = h.whash) (hcopy : g.whashCopy = h.whashCopy) (hcounter : g.counter = h.counter) : g = h := by
  cases h
  cases g
  simp_all

/-- The schedule is that of the new block, whatever `ws` held before. -/
theorem HashState.loadBlk_sched_ws (b : Vector Byte 64) (h g : HashState) :
    (g.loadBlk b).sched.ws = (h.loadBlk b).sched.ws := by
  apply Vector.toList_inj.mp
  rw [toList_eq_scheduleOf (g.loadBlk b).isSchedule_sched, toList_eq_scheduleOf (h.loadBlk b).isSchedule_sched,
    HashState.loadBlk_data, HashState.loadBlk_data]

/-- An absorption writes every field but `k` anew, from the block, `k`, `whash` and the counter. -/
theorem HashState.SameChain.absorb_congr {h g : HashState} (hg : h.SameChain g) (b : Vector Byte 64) :
    g.absorb b = h.absorb b := by
  obtain ⟨hk, hwhash, hcounter⟩ := hg
  have hcopied : (g.loadBlk b).sched.copy = (h.loadBlk b).sched.copy :=
    HashState.eq_of_fields (by simp [hk]) (by simp) (by simp [HashState.loadBlk_sched_ws b h g]) (by simp [hwhash])
      (by simp [hwhash]) (by simp [hcounter])
  rw [HashState.absorb_eq, HashState.absorb_eq, HashState.compress, HashState.compress, hcopied]

theorem HashState.SameChain.absorbedFrom_congr {h g : HashState} (hg : h.SameChain g) (m : Memory) (src : Nat) {n : Nat}
    (hn : n ≠ 0) : absorbedFrom m src n g = absorbedFrom m src n h := by
  induction n with
  | zero => exact absurd rfl hn
  | succ n ih =>
    rw [absorbedFrom_succ, absorbedFrom_succ]
    by_cases h0 : n = 0
    · subst h0
      rw [absorbedFrom_zero, absorbedFrom_zero, hg.absorb_congr]
    · rw [ih h0]

theorem HashState.SameChain.finalizedFrom_congr {h g : HashState} (hg : h.SameChain g) (m : Memory) (src len : Nat) :
    finalizedFrom m src len g = finalizedFrom m src len h := by
  rw [finalizedFrom_eq, finalizedFrom_eq, hg.counter]
  simp only [hg.absorb_congr]

theorem HashState.sameChain_load (h g : HashState) : h.load.SameChain g.load :=
  ⟨by simp, by simp, by simp⟩

theorem HashState.SameChain.absorbedFrom {h g : HashState} (hg : h.SameChain g) (m : Memory) (src n : Nat) :
    (absorbedFrom m src n h).SameChain (absorbedFrom m src n g) := by
  by_cases hn : n = 0
  · subst hn
    simpa using hg
  · rw [hg.absorbedFrom_congr m src hn]
    exact ⟨rfl, rfl, rfl⟩

/-! ### Hash states alike where a value is held -/

/-- The two hash states agree on the fields that hold a value. -/
def SameWhereHeld (f : Held) (h g : HashState) : Prop :=
  (f.k = true → g.k = h.k) ∧ (f.data = true → g.data = h.data) ∧ (f.ws = true → g.ws = h.ws) ∧
  (f.whash = true → g.whash = h.whash) ∧ (f.whashCopy = true → g.whashCopy = h.whashCopy) ∧
  (f.counter = true → g.counter = h.counter)

theorem sameWhereHeld_refl (f : Held) (h : HashState) : SameWhereHeld f h h :=
  ⟨fun _ => rfl, fun _ => rfl, fun _ => rfl, fun _ => rfl, fun _ => rfl, fun _ => rfl⟩

theorem alikeWhereHeld_iff {s t : State} :
    AlikeWhereHeld s t ↔ t = { s with hash := t.hash } ∧ SameWhereHeld s.held s.hash t.hash := Iff.rfl

theorem alike_withHash {s : State} {g : HashState} (h : SameWhereHeld s.held s.hash g) :
    AlikeWhereHeld s { s with hash := g } := ⟨rfl, h⟩

/-- In an initialised session everything an absorption reads holds a value. -/
theorem sameChain_of_initDone {s : State} {g : HashState} (hs : HeldOk s) (hg : SameWhereHeld s.held s.hash g)
    (hinit : s.status.initDone = true) : s.hash.SameChain g := by
  obtain ⟨hk, hwhash, hcounter, -⟩ := hs
  obtain ⟨gk, -, -, gwhash, -, gcounter⟩ := hg
  exact ⟨gk (hk.trans hinit), gwhash (hwhash.trans hinit), gcounter (hcounter.trans hinit)⟩

/-! ### Commands -/

/-- The counter is looked at only once INIT_DONE = 1 (R214). -/
theorem verdict_withHash (i : Instr) {s : State} {g : HashState}
    (hg : s.status.initDone = true → g.counter = s.hash.counter) : verdict i { s with hash := g } = verdict i s := by
  by_cases hinit : s.status.initDone = true
  · exact verdict_congr rfl (hg hinit) rfl rfl
  · cases i with
    | init | finish | hash => rfl
    | update | updateMulti | updateLast =>
      simp [verdict, acceptanceChecks, notFaulted, initialised, firstFailing_cons, hinit]

theorem hashAfter_hash_withHash (s : State) (g : HashState) :
    hashAfter { s with hash := g } .hash = hashAfter s .hash :=
  ((s.hash.sameChain_load g).absorbedFrom _ _ _).finalizedFrom_congr _ _ _

/-- The hash states that an accepted command leaves agree on the fields that hold a value then. -/
theorem sameWhereHeld_hashAfter {i : Instr} {s : State} {g : HashState} (hv : verdict i s = .accepted) (hs : HeldOk s)
    (hg : SameWhereHeld s.held s.hash g) :
    SameWhereHeld (heldAfter s i) (hashAfter s i) (hashAfter { s with hash := g } i) := by
  have of_eq {f : Held} {h h' : HashState} (e : h' = h) : SameWhereHeld f h h' := e ▸ sameWhereHeld_refl f h'
  have chain (h : i ≠ .init ∧ i ≠ .hash) : s.hash.SameChain g :=
    sameChain_of_initDone hs hg (initDone_of_accepted hv h.1 h.2)
  cases i with
  | init =>
    obtain ⟨-, hdata, hws, -, hcopy, -⟩ := hg
    exact ⟨fun _ => rfl, hdata, hws, fun _ => rfl, hcopy, fun _ => rfl⟩
  | update => exact of_eq ((chain (by decide)).absorb_congr _)
  | updateMulti =>
    by_cases hn : s.len = 0
    · rw [heldAfter, if_pos hn]
      show SameWhereHeld _ (absorbedFrom _ _ s.len s.hash) (absorbedFrom _ _ s.len g)
      rwa [hn, absorbedFrom_zero, absorbedFrom_zero]
    · exact of_eq ((chain (by decide)).absorbedFrom_congr _ _ hn)
  | updateLast => exact of_eq ((chain (by decide)).finalizedFrom_congr _ _ _)
  | finish => exact hg
  | hash => exact of_eq (hashAfter_hash_withHash s g)

/-- FINISH and HASH store the same digest. -/
theorem memAfter_withHash {i : Instr} {s : State} {g : HashState} (hv : verdict i s = .accepted) (hs : HeldOk s)
    (hg : SameWhereHeld s.held s.hash g) : memAfter { s with hash := g } i = memAfter s i := by
  cases i with
  | init | update | updateMulti | updateLast => rfl
  | finish =>
    have hchain := sameChain_of_initDone hs hg (initDone_of_accepted hv (by decide) (by decide))
    exact congrArg (fun w => memWrite s.mem s.dst (wordsToBytesBE w)) hchain.whash
  | hash =>
    exact congrArg (fun h => memWrite s.mem s.dst (wordsToBytesBE (HashState.whash h))) (hashAfter_hash_withHash s g)

theorem raiseFault_alike (code : FaultCode) {s : State} {g : HashState} (hg : SameWhereHeld s.held s.hash g) :
    AlikeWhereHeld (raiseFault code s) (raiseFault code { s with hash := g }) := by
  have hcomm : raiseFault code { s with hash := g } = { raiseFault code s with hash := g } := by
    unfold raiseFault
    dsimp only
    split <;> rfl
  rw [hcomm]
  exact alike_withHash (s := raiseFault code s) (by rwa [raiseFault_held, raiseFault_hash])

theorem exec_alike (i : Instr) {s : State} {g : HashState} (hs : HeldOk s) (hg : SameWhereHeld s.held s.hash g) :
    AlikeOutcomes (exec i s) (exec i { s with hash := g }) := by
  have hverdict : verdict i { s with hash := g } = verdict i s := verdict_withHash i fun hinit =>
    (sameChain_of_initDone hs hg hinit).counter
  cases hv : verdict i s with
  | accepted =>
    rw [exec_accepted hv, exec_accepted (hverdict.trans hv), memAfter_withHash hv hs hg]
    have hheld : heldAfter { s with hash := g } i = heldAfter s i := by cases i <;> rfl
    have hstatus : statusAfter { s with hash := g } i = statusAfter s i := by cases i <;> rfl
    rw [hheld, hstatus]
    exact alike_withHash (s := { s with
      hash := _, held := heldAfter s i, status := _, mem := _, seq := _ }) (sameWhereHeld_hashAfter hv hs hg)
  | refusedFaulted =>
    rw [exec_eq_conclude, exec_eq_conclude, hverdict, hv]
    exact alike_withHash (s := toIdle s) hg
  | refused code =>
    rw [exec_eq_conclude, exec_eq_conclude, hverdict, hv]
    exact raiseFault_alike code hg

/-- A write to CMD ends in a next state, whatever the word (R212, R214). -/
theorem commandWrite_next (c : Word) (s : State) : ∃ t, commandWrite c s = .next t := by
  unfold commandWrite
  split
  · rename_i i _
    rw [exec_eq_conclude]
    cases verdict i s <;> exact ⟨_, rfl⟩
  · exact ⟨_, rfl⟩

theorem commandWrite_alike (c : Word) {s : State} {g : HashState} (hs : HeldOk s)
    (hg : SameWhereHeld s.held s.hash g) : AlikeOutcomes (commandWrite c s) (commandWrite c { s with hash := g }) := by
  unfold commandWrite
  split
  · exact exec_alike _ hs hg
  · exact raiseFault_alike _ hg

/-! ### Register accesses and reset -/

theorem registerWrite_alike (n : Nat) (v : Word) {s : State} {g : HashState} (hs : HeldOk s)
    (hg : SameWhereHeld s.held s.hash g) :
    AlikeOutcomes (registerWrite n v s) (registerWrite n v { s with hash := g }) := by
  unfold registerWrite
  split
  · rfl
  · exact commandWrite_alike v hs hg
  · exact alike_withHash (s := { s with operands := _ }) hg

/-- A register holds a value in both states or in neither, and where it does it holds the same one. -/
theorem registerWord_alike (r : RegName) {s : State} {g : HashState} (hg : SameWhereHeld s.held s.hash g) :
    (registerWord r { s with hash := g }).1 = (registerWord r s).1 ∧
      ((registerWord r s).1 = true → (registerWord r { s with hash := g }).2 = (registerWord r s).2) := by
  obtain ⟨hk, hdata, hws, hwhash, hcopy, hcounter⟩ := hg
  refine ⟨by cases r <;> rfl, ?_⟩
  cases r with
  | cmd | status | srcLo | srcHi | dstLo | dstHi | lenLo | lenHi => exact fun _ => rfl
  | k i => exact fun h => congrArg (·[i]) (hk h)
  | data i => exact fun h => congrArg (·[i]) (hdata h)
  | ws i => exact fun h => congrArg (·[i]) (hws h)
  | whash i => exact fun h => congrArg (·[i]) (hwhash h)
  | whashCopy i => exact fun h => congrArg (·[i]) (hcopy h)
  | counter => exact hcounter

theorem registerRead_alike (n : Nat) {s : State} {g : HashState} (hg : SameWhereHeld s.held s.hash g) :
    AlikeOutcomes (registerRead n s) (registerRead n { s with hash := g }) := by
  cases hr : registerAt n with
  | none =>
    rw [registerRead_of_none hr, registerRead_of_none hr]
    rfl
  | some r =>
    obtain ⟨hheld, hword⟩ := registerWord_alike r hg
    rw [registerRead_of_some hr, registerRead_of_some hr, hheld]
    by_cases h : (registerWord r s).1 = true
    · rw [if_pos h, if_pos h, hword h]
      exact alike_withHash (s := deliver _ s) hg
    · rw [if_neg h, if_neg h]
      exact alike_withHash (s := deliverFree s) hg

/-- A reset leaves no difference: the commands it catches store the same digest bytes, and it clears the hash state. -/
theorem resetDuringCommand_withHash (c : Word) {s : State} {g : HashState} (hs : HeldOk s)
    (hg : SameWhereHeld s.held s.hash g) :
    resetDuringCommand c { s with hash := g } = resetDuringCommand c s := by
  have halike := commandWrite_alike c hs hg
  obtain ⟨t, ht⟩ := commandWrite_next c s
  obtain ⟨t', ht'⟩ := commandWrite_next c { s with hash := g }
  rw [ht, ht'] at halike
  obtain ⟨hsame, -⟩ := alikeWhereHeld_iff.mp halike
  simp only [resetDuringCommand, ht, ht']
  rw [hsame]
  rfl

theorem alikeOutcomes_refl (o : Host.Outcome State Fault Refusal) : AlikeOutcomes o o := by
  cases o with
  | next s => exact ⟨rfl, sameWhereHeld_refl _ _⟩
  | fault f => rfl
  | refused r => rfl

/-! ### Every action -/

theorem perform_alike (a : HostAction) {s : State} {g : HashState} (hs : HeldOk s)
    (hg : SameWhereHeld s.held s.hash g) : AlikeOutcomes (perform a s) (perform a { s with hash := g }) := by
  cases a with
  | wr n v => exact registerWrite_alike n v hs hg
  | rd n => exact registerRead_alike n hg
  | busWr addr bytes v =>
    simp only [perform]
    split
    · exact registerWrite_alike _ v hs hg
    · rfl
  | busRd addr bytes =>
    simp only [perform]
    split
    · exact registerRead_alike _ hg
    · rfl
  | store addr b =>
    simp only [perform, hostStore]
    split
    · exact alike_withHash (s := { s with mem := Memory.write s.mem addr b }) hg
    · rfl
  | load addr =>
    simp only [perform, hostLoad]
    split
    · exact alike_withHash (s := deliver _ s) hg
    · rfl
  | reset => exact alikeOutcomes_refl (.next (engineReset s))
  | resetDuring c =>
    simp only [perform]
    rw [resetDuringCommand_withHash c hs hg]
    exact alikeOutcomes_refl _
  | setAdmit grants => exact alike_withHash (s := setAdmit grants s) hg

/-- Settles O59: whatever the host's next action is, it looks at no element that holds no value. -/
theorem unheldElementsAreUnobservable : Obligations.UnheldElementsAreUnobservable := by
  intro s t hs halike
  obtain ⟨ht, hg⟩ := alikeWhereHeld_iff.mp halike
  rw [ht]
  unfold step nextAction
  dsimp only
  split
  · exact alike_withHash hg
  · exact perform_alike _ (s := { s with host := _ }) hs hg

end Sys2Proof.Machine
end

section
/-! PROOFS. The micro-operations of a command, one at a time, reach what `exec` computes in one step (R32, R162): the
loops of a block, a block, the message blocks, the padding blocks, the store. -/

namespace Sys2Proof.Machine

/-! ### Micro-steps that reach a place of the sequencer -/

/-- Finitely many micro-steps lead from `r` to `r'`. -/
def Reaches (r r' : Running) : Prop := ∃ n, microSteps n r = r'

theorem Reaches.refl (r : Running) : Reaches r r := ⟨0, rfl⟩

theorem Reaches.single {r r' : Running} (h : microStep r = r') : Reaches r r' := ⟨1, h⟩

theorem Reaches.trans {r r' r'' : Running} (h : Reaches r r') (h' : Reaches r' r'') : Reaches r r'' := by
  obtain ⟨m, rfl⟩ := h
  obtain ⟨n, rfl⟩ := h'
  exact ⟨m + n, microSteps_add m n r⟩

/-- The running command in block `i`, at a phase and loop index, the engine otherwise in state `s`. -/
def Running.place (r : Running) (p : Phase) (t : Fin 64) (i : Nat) (s : State) : Running :=
  { r with eng := { s with seq := ⟨p, t, i⟩ } }

/-- The running command once `i` blocks are absorbed, the engine otherwise in state `s`. -/
def Running.after (r : Running) (i : Nat) (s : State) : Running := { r with eng := proceed r i s }

theorem proceed_withSeq (r : Running) (i : Nat) (s : State) (q : Seq) :
    proceed r i { s with seq := q } = proceed r i s := by
  unfold proceed
  split <;> rfl

theorem after_of_phase {r : Running} {i : Nat} {p : Phase} (h : phaseAfter r i = p) (hp : p ≠ .idle) (s : State) :
    r.after i s = r.place p 0 i s := by
  unfold Running.after proceed
  rw [h]
  cases p with
  | idle => exact absurd rfl hp
  | _ => rfl

theorem after_of_idle {r : Running} {i : Nat} (h : phaseAfter r i = .idle) (s : State) :
    (r.after i s).eng = toIdle s := by
  unfold Running.after proceed
  rw [h]

/-! ### The loops of a block (R130, R140) -/

/-- A phase that runs its body for the loop indices `first` to `first + n`, in order, and then passes to another. -/
theorem reaches_loop {r : Running} {p q : Phase} {i first n : Nat} (g : Held → Held) (hg : ∀ f, g (g f) = g f)
    (body : (u : Nat) → u < n + 1 → HashState → HashState)
    (hstep : ∀ u (hu : u < n + 1) (s : State), microStep (r.place p (Fin.ofNat 64 (first + u)) i s) =
      r.place (if u = n then q else p) (Fin.ofNat 64 (first + (u + 1))) i
        { s with hash := body u hu s.hash, held := g s.held })
    (s : State) :
    Reaches (r.place p (Fin.ofNat 64 first) i s)
      (r.place q (Fin.ofNat 64 (first + (n + 1))) i
        { s with hash := Nat.fold (n + 1) body s.hash, held := g s.held }) := by
  suffices key : ∀ k (hk : k ≤ n), Reaches (r.place p (Fin.ofNat 64 first) i s)
      (r.place (if k = n then q else p) (Fin.ofNat 64 (first + (k + 1))) i
        { s with hash := Nat.fold (k + 1) (fun u hu => body u (by omega)) s.hash, held := g s.held }) by
    simpa using key n (Nat.le_refl n)
  intro k hk
  induction k with
  | zero => exact .single (hstep 0 (by omega) s)
  | succ k ih =>
    have before := ih (by omega)
    rw [if_neg (show k ≠ n by omega)] at before
    refine before.trans (.single ?_)
    rw [hstep (k + 1) (by omega)]
    simp only [hg, Nat.fold_succ]

theorem loopIndex_succ (n : Nat) : Fin.ofNat 64 n + 1 = Fin.ofNat 64 (n + 1) :=
  Fin.ext (by simp [Fin.val_add])

theorem loopIndex_of_lt {n : Nat} (hn : n < 64) : Fin.ofNat 64 n = ⟨n, hn⟩ := Fin.ext (Nat.mod_eq_of_lt hn)

theorem loopIndex_eq_iff {n m : Nat} (hn : n < 64) (hm : m < 64) : Fin.ofNat 64 n = Fin.ofNat 64 m ↔ n = m := by
  rw [loopIndex_of_lt hn, loopIndex_of_lt hm, Fin.mk.injEq]

theorem microStep_sched1 (r : Running) (i : Nat) (s : State) {u : Nat} (hu : u < 16) :
    microStep (r.place .sched1 (Fin.ofNat 64 u) i s) =
      r.place (if u = 15 then .sched2 else .sched1) (Fin.ofNat 64 (u + 1)) i
        { s with hash := s.hash.sched1 ⟨u, hu⟩ } := by
  have hindex : (⟨(Fin.ofNat 64 u).val % 16, by omega⟩ : Fin 16) = ⟨u, hu⟩ := Fin.ext (by simp; omega)
  have hlast : Fin.ofNat 64 u = 15 ↔ u = 15 := loopIndex_eq_iff (m := 15) (by omega) (by omega)
  rw [← loopIndex_succ, ← hindex]
  simp only [← hlast]
  rfl

theorem microStep_sched2 (r : Running) (i : Nat) (s : State) {u : Nat} (hu : u < 64) :
    microStep (r.place .sched2 (Fin.ofNat 64 u) i s) =
      r.place (if u = 63 then .copy else .sched2) (Fin.ofNat 64 (u + 1)) i
        { s with hash := s.hash.sched2 ⟨u, hu⟩, held := { s.held with ws := true } } := by
  have hlast : Fin.ofNat 64 u = 63 ↔ u = 63 := loopIndex_eq_iff (m := 63) hu (by omega)
  rw [← loopIndex_succ, ← loopIndex_of_lt hu]
  simp only [← hlast]
  rfl

theorem microStep_round (r : Running) (i : Nat) (s : State) {u : Nat} (hu : u < 64) :
    microStep (r.place .round (Fin.ofNat 64 u) i s) =
      r.place (if u = 63 then .feed else .round) (Fin.ofNat 64 (u + 1)) i { s with hash := s.hash.round ⟨u, hu⟩ } := by
  have hlast : Fin.ofNat 64 u = 63 ↔ u = 63 := loopIndex_eq_iff (m := 63) hu (by omega)
  rw [← loopIndex_succ, ← loopIndex_of_lt hu]
  simp only [← hlast]
  rfl

theorem reaches_sched1 (r : Running) (i : Nat) (s : State) :
    Reaches (r.place .sched1 0 i s) (r.place .sched2 16 i { s with hash := s.hash.schedPhase1 }) := by
  rw [HashState.schedPhase1_eq]
  refine reaches_loop (first := 0) (n := 15) id (fun _ => rfl) (fun t ht h => h.sched1 ⟨t, ht⟩) (fun u hu s => ?_) s
  rw [Nat.zero_add, Nat.zero_add]
  exact microStep_sched1 r i s hu

theorem reaches_sched2 (r : Running) (i : Nat) (s : State) :
    Reaches (r.place .sched2 16 i s)
      (r.place .copy 0 i { s with hash := s.hash.schedPhase2, held := { s.held with ws := true } }) := by
  rw [HashState.schedPhase2_eq]
  refine reaches_loop (first := 16) (n := 47) (fun f => { f with ws := true }) (fun _ => rfl)
    (fun u hu h => h.sched2 ⟨16 + u, by omega⟩) (fun u hu s => ?_) s
  rw [microStep_sched2 r i s (by omega)]
  simp only [show 16 + u = 63 ↔ u = 47 by omega, Nat.add_assoc]

theorem reaches_rounds (r : Running) (i : Nat) (s : State) :
    Reaches (r.place .round 0 i s) (r.place .feed 0 i { s with hash := s.hash.rounds }) := by
  rw [HashState.rounds_eq]
  refine reaches_loop (first := 0) (n := 63) id (fun _ => rfl) (fun t ht h => h.round ⟨t, ht⟩) (fun u hu s => ?_) s
  rw [Nat.zero_add, Nat.zero_add]
  exact microStep_round r i s hu

/-! ### A block (R157) -/

theorem absorb_eq_phases (b : Vector Byte 64) (s : State) :
    absorb b s = { s with
      hash := (s.hash.loadBlk b).schedPhase1.schedPhase2.copy.rounds.feedFwd.count
      held := s.held.afterAbsorb } := by
  rw [absorb, HashState.absorb_eq, HashState.sched, HashState.compress]

theorem finalAfter_withSeq (r : Running) (i : Nat) (s : State) (q : Seq) :
    finalAfter r i { s with seq := q } = { finalAfter r i s with seq := q } := by
  unfold finalAfter
  split <;> rfl

theorem microStep_count (r : Running) (i : Nat) (s : State) :
    microStep (r.place .count 0 i s) =
      r.after (i + 1)
        (finalAfter r (i + 1) { s with hash := s.hash.count, held := { s.held with counter := true } }) := by
  have hcount : microStep (r.place .count 0 i s) =
      r.after (i + 1) (finalAfter r (i + 1)
        { s with hash := s.hash.count, held := { s.held with counter := true }, seq := ⟨.count, 0, i⟩ }) := rfl
  rw [hcount, Running.after, Running.after,
    finalAfter_withSeq r (i + 1) { s with hash := s.hash.count, held := { s.held with counter := true } },
    proceed_withSeq]

theorem microStep_load (r : Running) (i : Nat) (s : State) :
    microStep (r.place .load 0 i s) = r.place .sched1 0 i
      { s with hash := s.hash.loadBlk (blockBytes { r with eng := s } i), held := { s.held with data := true } } :=
  rfl

theorem microStep_copy (r : Running) (i : Nat) (s : State) :
    microStep (r.place .copy 0 i s) =
      r.place .round 0 i { s with hash := s.hash.copy, held := { s.held with whashCopy := true } } := rfl

theorem microStep_feed (r : Running) (i : Nat) (s : State) :
    microStep (r.place .feed 0 i s) =
      r.place .count 0 i { s with hash := s.hash.feedFwd, held := { s.held with whash := true } } := rfl

/-- From LOAD to the end of COUNT the micro-steps absorb the block of that index. -/
theorem reaches_block (r : Running) (i : Nat) (s : State) :
    Reaches (r.place .load 0 i s)
      (r.after (i + 1) (finalAfter r (i + 1) (absorb (blockBytes { r with eng := s } i) s))) := by
  rw [absorb_eq_phases]
  refine (Reaches.single (microStep_load r i s)).trans ?_
  refine (reaches_sched1 r i _).trans ((reaches_sched2 r i _).trans ?_)
  refine (Reaches.single (microStep_copy r i _)).trans ((reaches_rounds r i _).trans ?_)
  exact (Reaches.single (microStep_feed r i _)).trans (.single (microStep_count r i _))

/-! ### The blocks of a command (R158, R159, R178) -/

theorem padBlocks_pos (len : Nat) : 0 < padBlocks len := by
  unfold padBlocks
  split <;> omega

theorem totalBlocks_of_pads {r : Running} (hp : pads r.cmd = true) :
    totalBlocks r = messageBlocks r + padBlocks (tailLen r) := by
  rw [totalBlocks, if_pos hp]

theorem totalBlocks_of_not_pads {r : Running} (hp : pads r.cmd = false) : totalBlocks r = messageBlocks r := by
  rw [totalBlocks, if_neg (by simp [hp]), Nat.add_zero]

theorem finalAfter_of_ne {r : Running} {i : Nat} (hi : i ≠ totalBlocks r) (s : State) : finalAfter r i s = s := by
  simp [finalAfter, hi]

/-- A message block is not the last one a command that pads absorbs. -/
theorem finalAfter_message {r : Running} {i : Nat} (hi : i ≤ messageBlocks r) (s : State) :
    finalAfter r i s = s := by
  cases hp : pads r.cmd with
  | false => simp [finalAfter, hp]
  | true =>
    have htotal := totalBlocks_of_pads hp
    have hpos := padBlocks_pos (tailLen r)
    exact finalAfter_of_ne (by omega) s

theorem blockBytes_message {r : Running} {i : Nat} (hi : i < messageBlocks r) (s : State) :
    blockBytes { r with eng := s } i = memRead s.mem (r.src + 64 * i) 64 := if_pos hi

/-- The message blocks are absorbed in order. -/
theorem reaches_messageBlocks (r : Running) (s : State) :
    Reaches (r.after 0 s) (r.after (messageBlocks r) (absorbBlocks r.src (messageBlocks r) s)) := by
  suffices key : ∀ i ≤ messageBlocks r, Reaches (r.after 0 s) (r.after i (absorbBlocks r.src i s)) from
    key _ (Nat.le_refl _)
  intro i hi
  induction i with
  | zero =>
    rw [absorbBlocks_zero]
    exact .refl _
  | succ i ih =>
    have hload : phaseAfter r i = .load := if_pos hi
    refine (ih (by omega)).trans ?_
    rw [after_of_phase hload (by decide), absorbBlocks_succ, ← blockBytes_message hi (absorbBlocks r.src i s),
      ← finalAfter_message hi (absorb _ _)]
    exact reaches_block r i _

theorem blockBytes_firstPad (r : Running) (s : State) :
    blockBytes { r with eng := s } (messageBlocks r) = padBlock r.scratch 0 := by
  show (if messageBlocks r < messageBlocks r then _ else if messageBlocks r = messageBlocks r then _ else _) = _
  rw [if_neg (by omega), if_pos rfl]

theorem blockBytes_secondPad (r : Running) (s : State) :
    blockBytes { r with eng := s } (messageBlocks r + 1) = padBlock r.scratch 1 := by
  show (if messageBlocks r + 1 < messageBlocks r then _ else if messageBlocks r + 1 = messageBlocks r then _ else _) = _
  rw [if_neg (by omega), if_neg (by omega)]

/-- The one or two blocks of a filled scratch are absorbed, and FINAL is set with the last of them. -/
theorem reaches_padBlocks {r : Running} (hp : pads r.cmd = true) (s : State) :
    Reaches (r.place .load 0 (messageBlocks r) s) (r.after (totalBlocks r) (setFinal
      (if tailLen r < 56 then absorb (padBlock r.scratch 0) s
        else absorb (padBlock r.scratch 1) (absorb (padBlock r.scratch 0) s)))) := by
  have hlast (s : State) : finalAfter r (totalBlocks r) s = setFinal s := by simp [finalAfter, hp]
  have htotal := totalBlocks_of_pads hp
  have hfirst := reaches_block r (messageBlocks r) s
  rw [blockBytes_firstPad] at hfirst
  by_cases hl : tailLen r < 56
  · rw [padBlocks, if_pos hl] at htotal
    rw [if_pos hl, ← hlast, htotal]
    exact hfirst
  · rw [padBlocks, if_neg hl] at htotal
    have hload : phaseAfter r (messageBlocks r + 1) = .load := by
      rw [phaseAfter, if_neg (by omega), if_pos (by omega), if_neg (by omega)]
    rw [finalAfter_of_ne (by omega), after_of_phase hload (by decide)] at hfirst
    have hsecond := reaches_block r (messageBlocks r + 1) (absorb (padBlock r.scratch 0) s)
    rw [blockBytes_secondPad] at hsecond
    rw [if_neg hl, ← hlast, htotal]
    exact hfirst.trans hsecond

theorem absorbLast_eq (src len : Nat) (s : State) :
    absorbLast src len s = setFinal
      (if len < 56 then absorb (padBlock (padScratch (memRead s.mem src len) s.hash.counter) 0) s
        else absorb (padBlock (padScratch (memRead s.mem src len) s.hash.counter) 1)
          (absorb (padBlock (padScratch (memRead s.mem src len) s.hash.counter) 0) s)) := rfl

/-- PAD fills the scratch with the padding of the rest of the message. -/
theorem microStep_pad (r : Running) (i : Nat) (s : State) :
    microStep (r.place .pad 0 i s) =
      Running.place { r with scratch := padScratch (memRead s.mem (tailAddr r) (tailLen r)) s.hash.counter }
        .load 0 i s := rfl

theorem reaches_padding {r : Running} (hp : pads r.cmd = true) (s : State) :
    ∃ scratch, Reaches (r.after (messageBlocks r) s)
      (Running.after { r with scratch := scratch } (totalBlocks r) (absorbLast (tailAddr r) (tailLen r) s)) := by
  have htotal := totalBlocks_of_pads hp
  have hpos := padBlocks_pos (tailLen r)
  have hpad : phaseAfter r (messageBlocks r) = .pad := by
    rw [phaseAfter, if_neg (by omega), if_pos (by omega), if_pos rfl]
  refine ⟨padScratch (memRead s.mem (tailAddr r) (tailLen r)) s.hash.counter, ?_⟩
  rw [after_of_phase hpad (by decide), absorbLast_eq]
  refine (Reaches.single (microStep_pad r _ s)).trans ?_
  generalize padScratch (memRead s.mem (tailAddr r) (tailLen r)) s.hash.counter = scratch
  exact reaches_padBlocks (r := { r with scratch := scratch }) hp s

/-! ### A whole command (R162) -/

/-- The engine when a command has absorbed its blocks and, if it stores, stored the digest. -/
def Running.completed (r : Running) (s : State) : State :=
  let absorbed := absorbBlocks r.src (messageBlocks r) s
  let finalized := if pads r.cmd then absorbLast (tailAddr r) (tailLen r) absorbed else absorbed
  if stores r.cmd then storeDigest r.dst finalized else finalized

theorem microStep_store (r : Running) (i : Nat) (s : State) :
    microStep (r.place .store 0 i s) = { r with eng := toIdle (storeDigest r.dst s) } := rfl

/-- After the last block a command that stores passes through STORE, and every command ends in IDLE. -/
theorem reaches_end (r : Running) (s : State) :
    ∃ r', Reaches (r.after (totalBlocks r) s) r' ∧
      r'.eng = toIdle (if stores r.cmd then storeDigest r.dst s else s) := by
  have hmsg : messageBlocks r ≤ totalBlocks r := Nat.le_add_right _ _
  have hphase : phaseAfter r (totalBlocks r) = if stores r.cmd then .store else .idle := by
    rw [phaseAfter, if_neg (by omega), if_neg (by omega)]
  by_cases hs : stores r.cmd = true
  · rw [if_pos hs] at hphase ⊢
    refine ⟨{ r with eng := toIdle (storeDigest r.dst s) }, ?_, rfl⟩
    rw [after_of_phase hphase (by decide)]
    exact .single (microStep_store r _ s)
  · rw [if_neg hs] at hphase ⊢
    exact ⟨_, .refl _, after_of_idle hphase s⟩

theorem reaches_completed (r : Running) (s : State) :
    ∃ r', Reaches (r.after 0 s) r' ∧ r'.eng = toIdle (r.completed s) := by
  have hmessage := reaches_messageBlocks r s
  by_cases hp : pads r.cmd = true
  · obtain ⟨scratch, hpadding⟩ := reaches_padding hp (absorbBlocks r.src (messageBlocks r) s)
    obtain ⟨r', hend, heng⟩ := reaches_end { r with scratch := scratch } (absorbLast (tailAddr r) (tailLen r)
      (absorbBlocks r.src (messageBlocks r) s))
    refine ⟨r', hmessage.trans (hpadding.trans hend), ?_⟩
    rw [heng, Running.completed, if_pos hp]
  · rw [← totalBlocks_of_not_pads (eq_false_of_ne_true hp)] at hmessage
    obtain ⟨r', hend, heng⟩ := reaches_end r (absorbBlocks r.src (totalBlocks r) s)
    refine ⟨r', hmessage.trans hend, ?_⟩
    rw [heng, Running.completed, if_neg hp, totalBlocks_of_not_pads (eq_false_of_ne_true hp)]

/-- Completed, a command has had the effect that `exec` gives it. -/
theorem completed_beginCommand (i : Instr) (s : State) :
    (beginCommand i s).completed (if initialises i then initState s else s) = effectOf i s := by
  cases i with
  | update =>
    show absorbBlocks s.src 1 s = updateState s
    rw [absorbBlocks_succ, absorbBlocks_zero]
    rfl
  | updateLast =>
    show absorbLast s.src s.len (absorbBlocks s.src 0 s) = updateLastState s
    rw [absorbBlocks_zero]
    rfl
  | finish =>
    show storeDigest s.dst (absorbBlocks s.src 0 s) = finishState s
    rw [absorbBlocks_zero]
    rfl
  | init =>
    show absorbBlocks s.src 0 (initState s) = initState s
    rw [absorbBlocks_zero]
  | updateMulti => rfl
  | hash => rfl

/-- CHECK decides as `exec` does, in the state of the CMD write (R32, R214). -/
theorem microStep_check (i : Instr) (s : State) :
    microStep (beginCommand i s) =
      match verdict i s with
      | .accepted => (beginCommand i s).after 0 (if initialises i then initState s else s)
      | .refusedFaulted => { beginCommand i s with eng := toIdle s }
      | .refused code => { beginCommand i s with eng := raiseFault code s } := by
  have hverdict : verdict i { s with seq := ⟨.check, 0, 0⟩ } = verdict i s := verdict_beginCommand i s
  have hraise (code : FaultCode) : raiseFault code { s with seq := ⟨.check, 0, 0⟩ } = raiseFault code s := by
    unfold raiseFault
    dsimp only
    split <;> rfl
  have hinit : proceed (beginCommand i s) 0
        (if initialises i then initState { s with seq := ⟨.check, 0, 0⟩ } else { s with seq := ⟨.check, 0, 0⟩ }) =
      proceed (beginCommand i s) 0 (if initialises i then initState s else s) := by
    split
    · exact proceed_withSeq _ 0 (initState s) _
    · exact proceed_withSeq _ 0 s _
  cases hv : verdict i s with
  | accepted =>
    simp only [microStep, beginCommand, hverdict, hv]
    exact congrArg (fun e => { beginCommand i s with eng := e }) hinit
  | refusedFaulted =>
    simp only [microStep, beginCommand, hverdict, hv]
    rfl
  | refused code => simp only [microStep, beginCommand, hverdict, hv, hraise]

/-- CHECK begins an accepted command, which then absorbs and stores. -/
theorem reaches_accepted {i : Instr} {s : State} (hv : verdict i s = .accepted) :
    ∃ r', Reaches (beginCommand i s) r' ∧ r'.eng = toIdle (effectOf i s) := by
  obtain ⟨r', hreach, heng⟩ := reaches_completed (beginCommand i s) (if initialises i then initState s else s)
  rw [completed_beginCommand] at heng
  exact ⟨r', .trans (.single (by rw [microStep_check, hv])) hreach, heng⟩

/-- A command, accepted or refused, leaves the sequencer in IDLE. -/
theorem exec_seq {i : Instr} {s t : State} (h : exec i s = .next t) : t.seq = Seq.idle := by
  rcases exec_cases h with ⟨-, rfl⟩ | ⟨-, rfl⟩ | ⟨code, -, rfl⟩
  · exact toIdle_seq _
  · exact toIdle_seq _
  · exact raiseFault_seq _ _

/-- Settles O60: CHECK decides as `exec` does, and the micro-operations after it add up to the command's effect. -/
theorem sequencerRefinesExec : Obligations.SequencerRefinesExec := by
  intro i s t h
  have ends : ∃ r, Reaches (beginCommand i s) r ∧ r.eng = t := by
    rcases exec_cases h with ⟨hv, rfl⟩ | ⟨hv, rfl⟩ | ⟨code, hv, rfl⟩
    · exact reaches_accepted hv
    · exact ⟨_, .single rfl, by rw [microStep_check, hv]⟩
    · exact ⟨_, .single rfl, by rw [microStep_check, hv]⟩
  have hidle := exec_seq h
  obtain ⟨r, ⟨n, rfl⟩, rfl⟩ := ends
  refine ⟨n, rfl, hidle, fun m hm => ?_⟩
  obtain ⟨k, rfl⟩ := Nat.exists_eq_add_of_le hm
  rw [microSteps_add, microSteps_idle k (by rw [hidle]; rfl)]

end Sys2Proof.Machine
end

section
/-! PROOFS. What commands, the host and reset do to MEM: the bytes a command reads and writes, a byte stored and loaded,
a digest torn by a reset, and the canonical form under every step (R50 to R52, R61, R180, R242). -/

namespace Sys2Proof.Machine

open Sys2Proof.Safety

/-! ### The bytes a command writes (R52) -/

theorem memAfter_wf (i : Instr) {s : State} (hwf : s.mem.wf = true) : (memAfter s i).wf = true := by
  cases i with
  | init | update | updateMulti | updateLast => exact hwf
  | finish | hash => exact memWrite_wf hwf _ _

theorem read_memAfter_outside (i : Instr) (s : State) {a : Nat} (ha : a < s.dst ∨ s.dst + 32 ≤ a) :
    Memory.read (memAfter s i) a = Memory.read s.mem a := by
  cases i with
  | init | update | updateMulti | updateLast => rfl
  | finish | hash => exact read_memWrite_outside _ _ ha

/-- A command leaves the MEM of its effect or, refused, the MEM it found. -/
theorem exec_mem {i : Instr} {s t : State} (h : exec i s = .next t) :
    verdict i s = .accepted ∧ t.mem = memAfter s i ∨ verdict i s ≠ .accepted ∧ t.mem = s.mem := by
  rcases exec_cases h with ⟨hv, rfl⟩ | ⟨hv, rfl⟩ | ⟨code, hv, rfl⟩
  · exact .inl ⟨hv, by simp⟩
  · exact .inr ⟨by simp [hv], by simp⟩
  · exact .inr ⟨by simp [hv], by simp⟩

/-- Settles O37: only the effects of FINISH and HASH write, the 32 bytes at DST, and a refusal writes nothing. -/
theorem memoryWriteFootprint : Obligations.MemoryWriteFootprint := by
  intro i s t h
  rcases exec_mem h with ⟨hv, hmem⟩ | ⟨-, hmem⟩
  · refine ⟨?_, fun a ha => by rw [hmem, read_memAfter_outside i s ha]⟩
    rintro (⟨hfinish, hhash⟩ | hrefused)
    · rcases memAfter_cases hv with ⟨hkept, -⟩ | ⟨rfl | rfl, -⟩
      · rw [hmem, hkept]
      · exact absurd rfl hfinish
      · exact absurd rfl hhash
    · exact absurd hv hrefused
  · exact ⟨fun _ => hmem, fun a _ => by rw [hmem]⟩

/-- Settles O29: FINISH is accepted whatever FINAL is, and its effect is the range write of the digest. -/
theorem finishStoresDigest : Obligations.FinishStoresDigest := by
  intro s hwf hfault hinit hadmit
  have hv : verdict .finish s = .accepted := (verdict_finish s).mpr ⟨hfault, hinit, hadmit⟩
  refine ⟨_, exec_accepted hv, fun i hi j hj => ?_, fun a ha => read_memAfter_outside .finish s ha,
    memAfter_wf .finish hwf, rfl, rfl, rfl, ⟨rfl, rfl, rfl, rfl, rfl⟩, rfl⟩
  rw [← wordByte_toNat, ← read_digest hwf s.dst s.hash.whash hi hj]
  rfl

/-! ### The bytes a command reads (R52) -/

/-- How many bytes from SRC on a command reads (R52). -/
def readLength (s : State) : Instr → Nat
  | .update => 64
  | .updateMulti => 64 * s.len
  | .updateLast | .hash => s.len
  | .init | .finish => 0

/-- The hash state a command leaves depends on no other byte of MEM. -/
theorem hashAfter_withMem {i : Instr} {s : State} {m : Memory}
    (hm : ∀ a, s.src ≤ a → a < s.src + readLength s i → Memory.read m a = Memory.read s.mem a) :
    hashAfter { s with mem := m } i = hashAfter s i := by
  cases i with
  | init | finish => rfl
  | update =>
    have hblock : memRead m s.src 64 = memRead s.mem s.src 64 :=
      memRead_congr fun j hj => hm _ (Nat.le_add_right _ _) (Nat.add_lt_add_left hj _)
    exact congrArg s.hash.absorb hblock
  | updateMulti => exact absorbedFrom_congr hm s.hash
  | updateLast => exact finalizedFrom_congr hm s.hash
  | hash =>
    simp only [readLength] at hm
    have hfull : absorbedFrom m s.src (s.len / 64) s.hash.load = absorbedFrom s.mem s.src (s.len / 64) s.hash.load :=
      absorbedFrom_congr (fun a h1 h2 => hm a h1 (by omega)) _
    show finalizedFrom m (s.src + 64 * (s.len / 64)) (s.len % 64) (absorbedFrom m s.src (s.len / 64) s.hash.load) = _
    rw [hfull]
    exact finalizedFrom_congr (fun a h1 h2 => hm a (by omega) (by omega)) _

theorem raiseFault_withMem (code : FaultCode) (s : State) (m : Memory) :
    raiseFault code { s with mem := m } = { raiseFault code s with mem := m } := by
  unfold raiseFault
  dsimp only
  split <;> rfl

/-- What a command leaves in another memory that agrees on the bytes it reads: the same but for MEM. -/
theorem exec_withMem {i : Instr} {s t : State} {m : Memory}
    (hm : ∀ a, s.src ≤ a → a < s.src + readLength s i → Memory.read m a = Memory.read s.mem a)
    (h : exec i s = .next t) : ∃ t', exec i { s with mem := m } = .next t' ∧ t = { t' with mem := t.mem } := by
  have hverdict : verdict i { s with mem := m } = verdict i s := verdict_congr rfl rfl rfl rfl
  rcases exec_cases h with ⟨hv, rfl⟩ | ⟨hv, rfl⟩ | ⟨code, hv, rfl⟩
  · refine ⟨_, exec_of_accepted (hverdict.trans hv), ?_⟩
    rw [effectOf_spec, effectOf_spec, hashAfter_withMem hm]
    have hheld : heldAfter { s with mem := m } i = heldAfter s i := by cases i <;> rfl
    have hstatus : statusAfter { s with mem := m } i = statusAfter s i := by cases i <;> rfl
    rw [hheld, hstatus]
    rfl
  · exact ⟨toIdle { s with mem := m }, by rw [exec_eq_conclude, hverdict, hv]; rfl, rfl⟩
  · refine ⟨{ raiseFault code s with mem := m }, ?_, rfl⟩
    rw [exec_eq_conclude, hverdict, hv, ← raiseFault_withMem]
    rfl

/-- Settles O38: the verdict looks at no byte of MEM, and the effect at those the command reads. -/
theorem memoryReadFootprint : Obligations.MemoryReadFootprint := by
  intro i s t m hm h
  refine exec_withMem (fun a h1 h2 => hm a ?_) h
  cases i with
  | init | finish => exact absurd h2 (Nat.not_lt.mpr h1)
  | update | updateMulti | updateLast | hash => exact ⟨h1, h2⟩

/-! ### The host's own accesses (R50, R51) -/

theorem isMemAddress_iff {p : Platform} {a : Nat} : isMemAddress p a = true ↔ a < 2 ^ p.aw := decide_eq_true_iff

theorem perform_store_of_lt {s : State} {a : Nat} (ha : a < 2 ^ s.platform.aw) (b : Byte) :
    perform (.store a b) s = .next { s with mem := Memory.write s.mem a b } :=
  if_pos (isMemAddress_iff.mpr ha)

theorem perform_load_of_lt {s : State} {a : Nat} {b : Byte} (ha : a < 2 ^ s.platform.aw)
    (hb : Memory.read s.mem a = b) : perform (.load a) s = .next (deliver (b.setWidth 32) s) := by
  rw [← hb]
  exact if_pos (isMemAddress_iff.mpr ha)

theorem perform_store_of_le {s : State} {a : Nat} (ha : 2 ^ s.platform.aw ≤ a) (b : Byte) :
    perform (.store a b) s = .fault (.noSuchAddress a) :=
  if_neg (by rw [isMemAddress_iff]; omega)

theorem perform_load_of_le {s : State} {a : Nat} (ha : 2 ^ s.platform.aw ≤ a) :
    perform (.load a) s = .fault (.noSuchAddress a) :=
  if_neg (by rw [isMemAddress_iff]; omega)

/-- Settles O46: the laws of one write to MEM, below the `2^AW` addresses there are. -/
theorem hostMemoryAccess : Obligations.HostMemoryAccess := by
  intro s a b hwf
  refine ⟨fun ha => ?_, fun ha => ⟨perform_store_of_le ha b, perform_load_of_le ha⟩⟩
  have hsame : Memory.read (Memory.write s.mem a b) a = b := Memory.read_write_same hwf a b
  exact ⟨_, perform_store_of_lt ha b, rfl, Memory.write_wf hwf a b, hsame,
    fun x hx => Memory.read_write_other s.mem b hx, perform_load_of_lt (s := { s with mem := _ }) ha hsame⟩

/-! ### A reset during a command (R242) -/

theorem perform_resetDuring {c : Word} {s done : State} (h : commandWrite c s = .next done) :
    perform (.resetDuring c) s =
      .next (engineReset { s with mem := tornDigest s.mem done.mem s.dst s.draws, draws := s.draws + 32 }) := by
  simp only [perform, resetDuringCommand, h]

/-- Settles O50: a reset of the engine, with MEM torn between what it was and what the command would have left. -/
theorem midCommandReset : Obligations.MidCommandReset := by
  intro s done c hwf h
  refine ⟨_, perform_resetDuring h, engineReset_status _, engineReset_held _, engineReset_operands _,
    engineReset_seq _, engineReset_platform _, ?_, fun a => ?_⟩
  · rw [engineReset_mem]
    exact tornDigest_wf hwf _ _ _
  · rw [engineReset_mem]
    exact read_tornDigest hwf _ _ _ a

/-! ### MEM and the platform under every step (R51, R61) -/

theorem exec_platform {i : Instr} {s t : State} (h : exec i s = .next t) : t.platform = s.platform := by
  obtain ⟨-, hplatform, -⟩ := commandsKeepSurroundings i s t h
  exact hplatform

theorem commandWrite_platform {c : Word} {s t : State} (h : commandWrite c s = .next t) : t.platform = s.platform := by
  unfold commandWrite at h
  split at h
  · exact exec_platform h
  · rw [← Host.Outcome.next.inj h, raiseFault_platform]

/-- A step leaves the platform alone, but for what the platform's own action says it admits. -/
theorem step_platform {s t : State} (h : step s = .next t) :
    t.platform = s.platform ∨
      ∃ grants rest, s.host = .setAdmit grants :: rest ∧ t.platform = { s.platform with grants := grants } := by
  rcases step_cases h with ⟨-, rfl⟩ | ⟨a, rest, hh, effect⟩
  · exact .inl rfl
  cases effect with
  | command _ _ _ _ hr => exact .inl (exec_platform (s := { s with host := rest }) hr)
  | setAdmit grants ha e =>
    subst e
    exact .inr ⟨grants, rest, by rw [hh, ha], setAdmit_platform _ _⟩
  | illegal e | write _ e | read _ e | readFree e | store _ _ _ e | reset _ e | resetDuring _ _ _ _ e =>
    subst e
    exact .inl (by simp)

theorem memoryOk_of_same {s t : State} (hs : MemoryOk s) (hmem : t.mem = s.mem)
    (haw : t.platform.aw = s.platform.aw) : MemoryOk t := by
  unfold MemoryOk
  rwa [hmem, haw]

/-- A digest is stored inside the address space, or the command that stores it is refused. -/
theorem memAfter_inside {i : Instr} {s : State} (hv : verdict i s = .accepted)
    (hs : ∀ c ∈ s.mem, c.1 < 2 ^ s.platform.aw) : ∀ c ∈ memAfter s i, c.1 < 2 ^ s.platform.aw := by
  rcases memAfter_cases hv with ⟨hmem, -⟩ | ⟨-, htop, hmem⟩
  · rwa [hmem]
  · intro c hc
    rw [hmem] at hc
    rcases mem_memWrite hc with hold | ⟨-, hnew⟩
    · exact hs c hold
    · omega

theorem memoryOk_command {i : Instr} {s : State} (hs : MemoryOk s) (hv : verdict i s = .accepted) :
    MemoryOk (toIdle (effectOf i s)) := by
  obtain ⟨hwf, hinside⟩ := hs
  simp only [MemoryOk, toIdle_mem, toIdle_platform, effectOf_mem, effectOf_platform]
  exact ⟨memAfter_wf i hwf, memAfter_inside hv hinside⟩

theorem memoryOk_store {s : State} (hs : MemoryOk s) {a : Nat} (ha : a < 2 ^ s.platform.aw) (b : Byte) :
    MemoryOk { s with mem := Memory.write s.mem a b } := by
  obtain ⟨hwf, hinside⟩ := hs
  refine ⟨Memory.write_wf hwf a b, fun c hc => ?_⟩
  rcases Memory.mem_write hc with hold | ⟨rfl, -⟩
  · exact hinside c hold
  · exact ha

/-- A torn digest lists only what one of the two memories lists. -/
theorem memoryOk_torn {s done : State} (hs : MemoryOk s) (hdone : MemoryOk done) (hp : done.platform = s.platform)
    (n : Nat) : MemoryOk { s with mem := tornDigest s.mem done.mem s.dst s.draws, draws := n } := by
  obtain ⟨hwf, hinside⟩ := hs
  obtain ⟨-, hdone⟩ := hdone
  rw [hp] at hdone
  refine ⟨tornDigest_wf hwf _ _ _, fun c hc => ?_⟩
  rcases mem_tornDigest hc with hold | ⟨d, hd, hdc⟩
  · exact hinside c hold
  · rw [← hdc]
    exact hdone d hd

theorem step_keeps_memoryOk {s t : State} (hs : MemoryOk s) (h : step s = .next t) : MemoryOk t := by
  refine step_keeps MemoryOk ?program ?command ?refusedFaulted ?refused ?operands ?read ?readFree ?store ?reset ?torn
    ?admission s t hs h
  case command => exact fun _ _ => memoryOk_command
  case store => exact fun _ b _ ha hs => memoryOk_store hs ha b
  case torn => exact fun _ _ _ n hs hc hdone => memoryOk_torn hs hdone (commandWrite_platform hc) n
  case refused => exact fun _ _ _ hs => memoryOk_of_same hs (raiseFault_mem _ _) (by rw [raiseFault_platform])
  case program | operands | read | admission => exact fun _ _ hs => memoryOk_of_same hs rfl rfl
  case refusedFaulted | readFree | reset => exact fun _ hs => memoryOk_of_same hs rfl rfl

/-- Settles O52: what is stored lies inside the address space, and only the platform's own action changes what it
admits. -/
theorem stepKeepsMemory : Obligations.StepKeepsMemory := by
  intro s t hs h
  refine ⟨step_keeps_memoryOk hs h, ?_⟩
  rcases step_platform h with hp | ⟨grants, rest, hh, hp⟩
  · rw [hp]
    exact ⟨rfl, rfl, fun _ => rfl⟩
  · rw [hp]
    exact ⟨rfl, rfl, fun hno => absurd hh (hno grants rest)⟩

end Sys2Proof.Machine
end

section
/-! PROOFS. Words and their big-endian bytes, and what Admit can be (R54, R55, R61, R198). -/

namespace Sys2Proof.Machine

/-! ### Words and bytes (R54, R55) -/

theorem be32_wordByte (w : Word) : be32 (wordByte w 0) (wordByte w 1) (wordByte w 2) (wordByte w 3) = w := by
  have := w.isLt
  apply BitVec.eq_of_toNat_eq
  simp only [be32_toNat, wordByte_toNat]
  omega

/-- Byte 0 of a word is the most significant one (R55). -/
theorem wordByte_be32 (a b c d : Byte) :
    wordByte (be32 a b c d) 0 = a ∧ wordByte (be32 a b c d) 1 = b ∧ wordByte (be32 a b c d) 2 = c ∧
      wordByte (be32 a b c d) 3 = d := by
  have := a.isLt; have := b.isLt; have := c.isLt; have := d.isLt
  refine ⟨?_, ?_, ?_, ?_⟩ <;>
  · apply BitVec.eq_of_toNat_eq
    simp only [be32_toNat, wordByte_toNat]
    omega

theorem getElem_bytesToWordsBE {n : Nat} (bs : Vector Byte (4 * n)) (i : Nat) (hi : i < n) :
    (bytesToWordsBE bs)[i] = be32 bs[4 * i] bs[4 * i + 1] bs[4 * i + 2] bs[4 * i + 3] := by
  simp [bytesToWordsBE]

theorem getElem_wordsToBytesBE {n : Nat} (ws : Vector Word n) (i j : Nat) (hi : i < n) (hj : j < 4) :
    (wordsToBytesBE ws)[4 * i + j] = wordByte ws[i] j := by
  simp only [wordsToBytesBE, Vector.getElem_ofFn]
  congr 1
  · congr 1; omega
  · omega

theorem bytesToWordsBE_wordsToBytesBE {n : Nat} (ws : Vector Word n) : bytesToWordsBE (wordsToBytesBE ws) = ws := by
  refine Vector.ext fun i hi => ?_
  have hfirst : (wordsToBytesBE ws)[4 * i] = wordByte ws[i] 0 := getElem_wordsToBytesBE ws i 0 hi (by decide)
  rw [getElem_bytesToWordsBE, hfirst, getElem_wordsToBytesBE ws i 1 hi (by decide),
    getElem_wordsToBytesBE ws i 2 hi (by decide), getElem_wordsToBytesBE ws i 3 hi (by decide), be32_wordByte]

theorem wordsToBytesBE_bytesToWordsBE {n : Nat} (bs : Vector Byte (4 * n)) :
    wordsToBytesBE (bytesToWordsBE bs) = bs := by
  refine Vector.ext fun m hm => ?_
  obtain ⟨i, j, hj, rfl⟩ : ∃ i j, j < 4 ∧ m = 4 * i + j := ⟨m / 4, m % 4, by omega, by omega⟩
  rw [getElem_wordsToBytesBE _ i j (by omega) hj, getElem_bytesToWordsBE]
  obtain ⟨h0, h1, h2, h3⟩ := wordByte_be32 bs[4 * i] bs[4 * i + 1] bs[4 * i + 2] bs[4 * i + 3]
  interval_cases j
  exacts [h0, h1, h2, h3]

/-- Settles O16: a word is its four bytes, most significant first, and the other way round. -/
theorem wordsAndBytesAreInverse : Obligations.WordsAndBytesAreInverse := by
  refine ⟨fun _ => bytesToWordsBE_wordsToBytesBE, fun _ => wordsToBytesBE_bytesToWordsBE, fun n bs i h => ?_⟩
  rw [getElem_bytesToWordsBE, be32_toNat]

/-! ### Admit (R61, R198) -/

/-- The registers stand outside the reserved numbers (R29). -/
theorem registerNumber_range (r : RegName) :
    registerNumber r < 0x008 ∨ 0x100 ≤ registerNumber r ∧ registerNumber r < 0x1A1 := by
  have hnamed : ¬ registerAt (registerNumber r) = none := by simp [registerAt_registerNumber]
  rw [registerAt_eq_none_iff] at hnamed
  omega

theorem meetsRegs_of_byte {p : Platform} {addr n : Nat} (r : RegName) {j : Nat} (hj : j < 4)
    (hlo : addr ≤ p.regBase + 4 * registerNumber r + j) (hhi : p.regBase + 4 * registerNumber r + j < addr + n) :
    meetsRegs p addr n = true := by
  have hr := registerNumber_range r
  by_contra hmeets
  have hclear := meetsRegs_eq_false.mp (eq_false_of_ne_true hmeets)
  omega

theorem admits_eq_false {p : Platform} {addr n : Nat} {kind : AccessKind} (hn : 0 < n)
    (h : 2 ^ p.aw < addr + n ∨ meetsRegs p addr n = true) : admits p addr n kind = false := by
  by_contra hadmits
  obtain ⟨htop, hclear⟩ := admits_inside hn (eq_true_of_ne_false hadmits)
  rcases h with h | h
  · omega
  · simp [hclear] at h

theorem isHashPart_blocks {base size i m : Nat} (h : 64 * (i + m) ≤ size) :
    isHashPart base size (base + 64 * i) (64 * m) = true := by
  simp only [isHashPart, decide_eq_true_eq]
  omega

theorem isHashPart_rest (base size : Nat) :
    isHashPart base size (base + 64 * (size / 64)) (size % 64) = true :=
  decide_eq_true ⟨by omega, by omega, .inr ⟨rfl, rfl⟩⟩

/-- Settles O47: an admitted range that is not empty ends below the top and clear of the registers, and the parts of a
message that HASH is accepted for are admitted with it. -/
theorem admitProperties : Obligations.AdmitProperties := by
  intro p addr n kind
  refine ⟨admits_zero p addr kind, fun hn hwrap => admits_eq_false hn (.inl hwrap), fun r j hj hlo hhi => ?_,
    fun _ _ _ => exec_platform, fun dst hn hread hwrite hclear => ?_⟩
  · exact admits_eq_false (by omega) (.inr (meetsRegs_of_byte r hj hlo hhi))
  · have hpart {a k : Nat} (h : isHashPart addr n a k = true) : admits p a k .read = true :=
      admits_hashPart hread hn hwrite (rangesOverlap_eq_false.mpr hclear) h
    exact ⟨fun i m h => hpart (isHashPart_blocks h), hpart (isHashPart_rest addr n)⟩

end Sys2Proof.Machine
end

section
/-! PROOFS. The decoder and the encoder over all command words (R80, R82, R86, R87, R92). -/

namespace Sys2Proof.Machine

/-! ### Encoding (R80, R92) -/

@[simp] theorem opcodeField_encode (i : Instr) : opcodeField (encode i) = opcodeOf i :=
  BitVec.extractLsb'_append_eq_right

@[simp] theorem zeroField_encode (i : Instr) : zeroField (encode i) = 0 :=
  BitVec.extractLsb'_append_eq_left

theorem roundTrip (i : Instr) : Laws.RoundTrip.Statement i := by
  cases i with
  | init => exact Laws.RoundTrip.init
  | update => exact Laws.RoundTrip.update
  | updateMulti => exact Laws.RoundTrip.updateMulti
  | updateLast => exact Laws.RoundTrip.updateLast
  | finish => exact Laws.RoundTrip.finish
  | hash => exact Laws.RoundTrip.hash

theorem wellFormed_instr (i : Instr) : i.wellFormed = true := (roundTrip i).1

@[simp] theorem decode_encode (i : Instr) : decode (encode i) = .ok i := (roundTrip i).2.2

/-- Settles O2: a word that decodes is `ZERO` above the opcode of its command, because `decode` looks at both fields and
the fields make up the word. -/
theorem decodeEncodeRoundTrip : Obligations.DecodeEncodeRoundTrip :=
  ⟨fun i => ⟨wellFormed_instr i, decode_encode i⟩, fun _ _ => eq_encode_of_decode,
    fun i => ⟨zeroField_encode i, opcodeField_encode i⟩⟩

/-! ### Illegal words (R87) -/

theorem decode_of_zeroField_ne {c : Word} (h : zeroField c ≠ 0) : decode c = .error .zeroField :=
  if_pos h

/-- OPCODE 0x00 and 0x07 to 0xFF select no command (R87). -/
theorem opcodeField_ne_opcodeOf {c : Word} (h : (opcodeField c).toNat = 0 ∨ 7 ≤ (opcodeField c).toNat) (i : Instr) :
    opcodeField c ≠ opcodeOf i := by
  have hrange : 1 ≤ (opcodeOf i).toNat ∧ (opcodeOf i).toNat ≤ 6 := by cases i <;> decide
  intro heq
  rw [heq] at h
  omega

theorem decode_of_opcodeField {c : Word} (hzero : zeroField c = 0)
    (h : (opcodeField c).toNat = 0 ∨ 7 ≤ (opcodeField c).toNat) : decode c = .error .opcode :=
  have hno := opcodeField_ne_opcodeOf h
  calc decode c
    _ = _ := if_neg (not_not.mpr hzero)
    _ = _ := if_neg (hno .init)
    _ = _ := if_neg (hno .update)
    _ = _ := if_neg (hno .updateMulti)
    _ = _ := if_neg (hno .updateLast)
    _ = _ := if_neg (hno .finish)
    _ = .error .opcode := if_neg (hno .hash)

/-- Settles O1: the six words of the opcode map are encodings; of the others, three have an OPCODE without a command and
three a bit set above OPCODE. -/
theorem specWordsDecode : Obligations.SpecWordsDecode :=
  ⟨decode_encode .init, decode_encode .update, decode_encode .updateMulti, decode_encode .updateLast,
    decode_encode .finish, decode_encode .hash,
    decode_of_opcodeField (by decide) (by decide), decode_of_opcodeField (by decide) (by decide),
    decode_of_opcodeField (by decide) (by decide), decode_of_zeroField_ne (by decide),
    decode_of_zeroField_ne (by decide), decode_of_zeroField_ne (by decide)⟩

end Sys2Proof.Machine
end

section
/-! PROOFS. The round functions bit by bit (R114, R117 to R122). -/

namespace Sys2Proof.Machine

/-- The two shifts of R114 are the library's right rotation when the amount is below the word's width. -/
theorem rotr_eq_rotateRight (x : Word) {n : Nat} (hn : n < 32) : rotr x n = x.rotateRight n :=
  (BitVec.rotateRight_eq_rotateRightAux_of_lt hn).symm

/-- The amount 0, which R114 leaves out, also rotates. -/
theorem getLsbD_rotr (x : Word) {n i : Nat} (hn : n < 32) (hi : i < 32) :
    (rotr x n).getLsbD i = x.getLsbD ((i + n) % 32) := by
  rw [rotr_eq_rotateRight x hn, BitVec.getLsbD_rotateRight_of_lt hn]
  rcases Nat.lt_or_ge i (32 - n) with hstays | hwraps
  · have hindex : (i + n) % 32 = n + i := by omega
    simp [hstays, hindex]
  · have hindex : (i + n) % 32 = i - (32 - n) := by omega
    simp [Nat.not_lt.mpr hwraps, hi, hindex]

/-- Settles O13: `rotr` is the library's rotation, and a bit of a rotation stays below the width or wraps. -/
theorem rotrRotatesBits : Obligations.RotrRotatesBits :=
  fun x _ _ _ hn hi => getLsbD_rotr x hn hi

/-- R117 at one bit. The bits above the word are 0 in all operands, so no bound on `i` is needed. -/
theorem getLsbD_ch (x y z : Word) (i : Nat) :
    (ch x y z).getLsbD i = if x.getLsbD i then y.getLsbD i else z.getLsbD i := by
  rcases Nat.lt_or_ge i 32 with hi | hi
  · have hbits : (ch x y z).getLsbD i = ((x.getLsbD i && y.getLsbD i) ^^ (!x.getLsbD i && z.getLsbD i)) := by
      simp [ch, hi]
    cases hx : x.getLsbD i <;> simp [hbits, hx]
  · simp [BitVec.getLsbD_of_ge, hi]

/-- R118 at one bit: an odd number of operand pairs are both 1 exactly when at least two operands are. -/
theorem getLsbD_maj (x y z : Word) (i : Nat) :
    (maj x y z).getLsbD i = decide (2 ≤ (x.getLsbD i).toNat + (y.getLsbD i).toNat + (z.getLsbD i).toNat) := by
  have hbits : ∀ a b c : Bool,
      ((a && b) ^^ (a && c) ^^ (b && c)) = decide (2 ≤ a.toNat + b.toNat + c.toNat) := by decide
  simp [maj, hbits]

/-- Settles O14: the formulas of R117 and R118 act on each bit alone. -/
theorem choosesAndMajority : Obligations.ChoosesAndMajority :=
  fun x y z i => ⟨getLsbD_ch x y z i, getLsbD_maj x y z i⟩

/-- The third term of a small sigma (R121, R122): bits shifted out are lost, and zeros come in at the top. -/
theorem getLsbD_ushiftRight_eq_and (x : Word) (n i : Nat) :
    (x >>> n).getLsbD i = (decide (i + n < 32) && x.getLsbD (i + n)) := by
  rw [BitVec.getLsbD_ushiftRight, Nat.add_comm, Bool.eq_and_self, decide_eq_true_eq]
  exact BitVec.lt_of_getLsbD

/-- Settles O15: each sigma is an exclusive or of rotations and shifts, and its bit that of their bits. -/
theorem sigmaAmounts : Obligations.SigmaAmounts := by
  intro x i hi
  refine ⟨?_, ?_, ?_, ?_⟩
  · simp only [bsig0, BitVec.getLsbD_xor, getLsbD_rotr, hi, Nat.reduceLT]
  · simp only [bsig1, BitVec.getLsbD_xor, getLsbD_rotr, hi, Nat.reduceLT]
  · simp only [ssig0, BitVec.getLsbD_xor, getLsbD_rotr, hi, Nat.reduceLT, getLsbD_ushiftRight_eq_and]
  · simp only [ssig1, BitVec.getLsbD_xor, getLsbD_rotr, hi, Nat.reduceLT, getLsbD_ushiftRight_eq_and]

end Sys2Proof.Machine
end

section
/-! PROOFS. The message scheduler and the compression function (R130 to R133, R140 to R143). -/

namespace Sys2Proof.Machine

/-- Settles O18: LOADBLK puts the block in `data`, SCHED leaves its schedule in `ws`, and neither COMPRESS nor COUNT
writes either of them. -/
theorem absorbComputesSchedule : Obligations.AbsorbComputesSchedule :=
  fun b h => ⟨HashState.absorb_data b h, HashState.isSchedule_absorb b h⟩

/-- Settles O21: `ws` read as a list is the schedule over lists, and the 64 rounds are a fold over the pairs of a round
constant and a schedule word. -/
theorem absorbIsCompression : Obligations.AbsorbIsCompression :=
  fun b h hk => HashState.absorb_whash b h hk

end Sys2Proof.Machine
end

section
/-! PROOFS. The compression engine: one round, and the feed-forward of an absorption (R140 to R143, R145). -/

namespace Sys2Proof.Machine

/-! ### One round (R142) -/

/-- A round changes `whash_copy` only (R142, R145). -/
theorem HashState.round_frame (t : Fin 64) (h : HashState) :
    h.round t = { h with whashCopy := (h.round t).whashCopy } := rfl

/-- Settles O17: each component of `roundVector` is computed from the old vector, and a round changes `whash_copy`
only. -/
theorem roundUpdatesVector : Obligations.RoundUpdatesVector := by
  intro t h v t1 t2
  have hnew : (h.round t).whashCopy = #v[t1 + t2, v[0], v[1], v[2], v[3] + t1, v[4], v[5], v[6]] :=
    HashState.round_whashCopy t h
  simp only [hnew]
  exact ⟨rfl, rfl, rfl, rfl, rfl, rfl, rfl, rfl, hnew ▸ HashState.round_frame t h⟩

/-! ### The feed-forward (R143) -/

/-- The rounds leave the `whash` that COPY saved, and FEEDFWD leaves the vector that the rounds computed. -/
theorem HashState.compress_whash (h : HashState) :
    h.compress.whash = Vector.zipWith (· + ·) h.whash h.compress.whashCopy := by
  rw [HashState.compress, HashState.feedFwd_whash, HashState.feedFwd_whashCopy, HashState.rounds_whash,
    HashState.copy_whash]

/-- Neither the scheduler nor COUNT writes `whash` or `whash_copy` (R157). -/
theorem HashState.absorb_whash_eq_zipWith (b : Vector Byte 64) (h : HashState) :
    (h.absorb b).whash = Vector.zipWith (· + ·) h.whash (h.absorb b).whashCopy := by
  rw [HashState.absorb_eq, HashState.count_whash, HashState.count_whashCopy, HashState.compress_whash,
    HashState.sched_whash, HashState.loadBlk_whash]

/-- Settles O19: FEEDFWD adds the vector left in `whash_copy` to a `whash` that nothing before it wrote. -/
theorem absorbFeedsForward : Obligations.AbsorbFeedsForward := by
  refine fun b h => ⟨fun i hi => ?_, HashState.absorb_k b h, HashState.absorb_counter b h⟩
  simp only [HashState.absorb_whash_eq_zipWith b h, Vector.getElem_zipWith]

end Sys2Proof.Machine
end

section
/-! PROOFS. INIT, UPDATE and UPDATE_MULTI: what each leaves, what an absorption depends on, and how runs of blocks
compose (R155 to R161). -/

namespace Sys2Proof.Machine

open Sys2Proof.Safety

/-! ### INIT (R155) -/

theorem HashState.load_load (h : HashState) : h.load.load = h.load := rfl

theorem Held.afterInit_afterInit (f : Held) : f.afterInit.afterInit = f.afterInit := rfl

theorem exec_init (s : State) : exec .init s = .next (toIdle (initState s)) := exec_of_accepted (verdict_init s)

/-- INIT after INIT changes nothing. -/
theorem exec_init_toIdle_initState (s : State) :
    exec .init (toIdle (initState s)) = .next (toIdle (initState s)) := by
  rw [exec_init]
  simp only [toIdle, initState, HashState.load_load, Held.afterInit_afterInit]

/-- Settles O12: no check stands before INIT, and what it loads does not depend on the state it finds. -/
theorem initStartsSession : Obligations.InitStartsSession := by
  refine fun s => ⟨toIdle (initState s), exec_init s, ?_⟩
  simp [SameSurroundings, exec_init_toIdle_initState, statusWord, statusAfterInit, FaultCode.number]

/-! ### What an absorption depends on (R157) -/

/-- Settles O20: the schedule, `whash_copy` and the feed-forward are computed from the block, `whash` and `k` alone. -/
theorem absorbDependsOnlyOnChain : Obligations.AbsorbDependsOnlyOnChain :=
  fun b _ _ hwhash hk hcounter => HashState.SameChain.absorb_congr ⟨hk, hwhash, hcounter⟩ b

/-! ### UPDATE and UPDATE_MULTI (R158, R159) -/

/-- Settles O22: R158's conditions are UPDATE's checks, and the counter has room for one block. -/
theorem updateAbsorbsOneBlock : Obligations.UpdateAbsorbsOneBlock := by
  rintro s ⟨hinit, hfinal, hfault⟩ hroom hadmit
  have hv : verdict .update s = .accepted := (verdict_update s).mpr ⟨hfault, hinit, hfinal, hroom, hadmit⟩
  exact ⟨_, exec_accepted hv, rfl, HashState.toNat_absorb_counter _ _ (by omega), rfl, rfl, rfl,
    ⟨rfl, rfl, rfl, rfl, rfl⟩, rfl⟩

/-- Settles O23: R159's conditions are UPDATE_MULTI's checks, and the counter has room for `n` blocks. -/
theorem updateMultiAbsorbsBlocks : Obligations.UpdateMultiAbsorbsBlocks := by
  rintro s ⟨hinit, hfinal, hfault⟩ hroom hadmit
  have hv : verdict .updateMulti s = .accepted := (verdict_updateMulti s).mpr ⟨hfault, hinit, hfinal, hroom, hadmit⟩
  refine ⟨_, exec_accepted hv, absorbedFrom_eq _ _ _ _, toNat_absorbedFrom_counter _ _ _ (by omega), rfl, rfl, rfl,
    ⟨rfl, rfl, rfl, rfl, rfl⟩, rfl, fun hlen => ?_⟩
  rw [hashAfter, heldAfter, if_pos hlen, hlen, absorbedFrom_zero]
  rfl

/-! ### Runs of blocks (R161) -/

theorem Held.afterAbsorb_afterAbsorb (f : Held) : f.afterAbsorb.afterAbsorb = f.afterAbsorb := rfl

/-- An accepted UPDATE_MULTI with its operands written out. -/
theorem updateMulti_withOperands {s t : State} {src dst len : BitVec 64}
    (hv : verdict .updateMulti (withOperands src dst len s) = .accepted)
    (h : exec .updateMulti (withOperands src dst len s) = .next t) :
    t.hash = absorbedFrom s.mem src.toNat len.toNat s.hash ∧
      t.held = (if len.toNat = 0 then s.held else s.held.afterAbsorb) ∧ t.status = s.status ∧ t.mem = s.mem := by
  obtain rfl : toIdle (effectOf .updateMulti (withOperands src dst len s)) = t := by
    rw [exec_of_accepted hv] at h
    injection h
  simp [hashAfter, heldAfter, statusAfter, memAfter]

/-- The verdict and the effect at `s` are all that a command's end depends on. -/
theorem exec_congr {i j : Instr} {s : State} (hv : verdict i s = verdict j s) (he : effectOf i s = effectOf j s) :
    exec i s = exec j s := by
  rw [exec_eq_conclude, exec_eq_conclude, hv]
  cases verdict j s with
  | accepted => rw [conclude, conclude, he]
  | refusedFaulted => rfl
  | refused code => rfl

theorem exec_update_eq_updateMulti {s : State} (hlen : s.len = 1) : exec .update s = exec .updateMulti s := by
  apply exec_congr
  · simp only [verdict, acceptanceChecks, hlen]
  · simp only [effectOf, updateState, updateMultiState, hlen, absorbBlocks_succ, absorbBlocks_zero, Nat.mul_zero,
      Nat.add_zero]

/-- Settles O24: the blocks of a run are absorbed by one fold, which splits at any block. -/
theorem updateMultiComposes : Obligations.UpdateMultiComposes := by
  refine ⟨fun s t1 t2 t src dst src2 len1 len2 len hsrc hlen hv1 h1 hv2 h2 hv h => ?_,
    fun s => exec_update_eq_updateMulti⟩
  obtain ⟨hhash1, hheld1, hstatus1, hmem1⟩ := updateMulti_withOperands hv1 h1
  obtain ⟨hhash2, hheld2, hstatus2, hmem2⟩ := updateMulti_withOperands hv2 h2
  obtain ⟨hhash, hheld, hstatus, hmem⟩ := updateMulti_withOperands hv h
  refine ⟨?_, ?_, by rw [hstatus2, hstatus1, hstatus], by rw [hmem2, hmem1, hmem]⟩
  · rw [hhash2, hhash1, hmem1, hsrc, ← absorbedFrom_add, ← hlen, hhash]
  · rw [hheld2, hheld1, hheld, hlen]
    by_cases hn1 : len1.toNat = 0 <;> by_cases hn2 : len2.toNat = 0 <;>
      simp [hn1, hn2, Held.afterAbsorb_afterAbsorb]

end Sys2Proof.Machine
end

section
/-! PROOFS. The padded region byte by byte, its length field, and what UPDATE_LAST leaves (R56, R175 to R178, R182). -/

namespace Sys2Proof.Machine

open Sys2Proof.Safety

/-! ### The length field (R56, R177) -/

theorem toNat_lengthBits (c : Word) {len : Nat} (hlen : len < 64) :
    (lengthBits c len).toNat = (c.toNat * 64 + len) * 8 := by
  have := c.isLt
  simp only [lengthBits, BitVec.toNat_mul, BitVec.toNat_add, BitVec.toNat_setWidth, BitVec.toNat_ofNat,
    BitVec.ofNat_eq_ofNat]
  omega

theorem toNat_getElem_be64Bytes (v : BitVec 64) (j : Nat) (hj : j < 8) :
    (be64Bytes v)[j].toNat = v.toNat / 2 ^ (56 - 8 * j) % 256 := by
  simp [be64Bytes, BitVec.extractLsb'_toNat, Nat.shiftRight_eq_div_pow]

/-- Settles O26: `2^32 - 1` blocks and 63 bytes make fewer than `2^64` bits, and byte `j` of the field is cut out
at bit `56 - 8*j`. -/
theorem lengthFieldIsBitLength : Obligations.LengthFieldIsBitLength :=
  ⟨fun c _ hlen => toNat_lengthBits c hlen, toNat_getElem_be64Bytes⟩

/-- The 8 bytes of the field, read as two big-endian words, are its high and its low half. -/
theorem be32_be64Bytes (v : BitVec 64) :
    (be32 (be64Bytes v)[0] (be64Bytes v)[1] (be64Bytes v)[2] (be64Bytes v)[3]).toNat * 2 ^ 32 +
      (be32 (be64Bytes v)[4] (be64Bytes v)[5] (be64Bytes v)[6] (be64Bytes v)[7]).toNat = v.toNat := by
  have := v.isLt
  simp only [be32_toNat, toNat_getElem_be64Bytes]
  omega

/-! ### The padded region (R175, R176) -/

theorem paddedSize_eq (len : Nat) : paddedSize len = if len < 56 then 64 else 128 := by
  unfold paddedSize padBlocks
  split <;> rfl

/-- The marker never reaches the length field, and the padded region never leaves the scratch (R175). -/
theorem paddedSize_bounds {len : Nat} (hlen : len < 64) : len + 8 < paddedSize len ∧ paddedSize len ≤ 128 := by
  rw [paddedSize_eq]
  split <;> omega

theorem getElem_padScratch_message {len : Nat} (hlen : len < 64) (d : Vector Byte len) (c : Word) {j : Nat}
    (hj : j < len) (hj' : j < 128) : (padScratch d c)[j] = d[j] := by
  rw [getElem_padScratch hlen, dif_pos hj]

theorem getElem_padScratch_marker {len : Nat} (hlen : len < 64) (d : Vector Byte len) (c : Word) (h : len < 128) :
    (padScratch d c)[len] = 0x80 := by
  rw [getElem_padScratch hlen, dif_neg (Nat.lt_irrefl len), if_pos rfl]

/-- Past the marker, whatever is not the length field is zero. -/
theorem getElem_padScratch_zero {len : Nat} (hlen : len < 64) (d : Vector Byte len) (c : Word) {j : Nat}
    (hj : j < 128) (hmarker : len < j) (hfield : j < paddedSize len - 8 ∨ paddedSize len ≤ j) :
    (padScratch d c)[j] = 0 := by
  rw [getElem_padScratch hlen, dif_neg (by omega), if_neg (by omega), dif_neg (by omega)]

theorem getElem_padScratch_field {len : Nat} (hlen : len < 64) (d : Vector Byte len) (c : Word) {i j : Nat}
    (hi : i < 128) (hj : j < 8) (hij : i = paddedSize len - 8 + j) :
    (padScratch d c)[i] = (be64Bytes (lengthBits c len))[j] := by
  have := paddedSize_bounds hlen
  rw [getElem_padScratch hlen, dif_neg (by omega), if_neg (by omega), dif_pos (by omega)]
  congr 1
  omega

/-- Settles O25: each byte of the scratch is a message byte, the marker, a byte of the length field, or zero. -/
theorem paddingLayout : Obligations.PaddingLayout := by
  intro len d c hlen
  have hbounds := paddedSize_bounds hlen
  rw [← paddedSize_eq]
  refine ⟨fun j => getElem_padScratch_message hlen d c, getElem_padScratch_marker hlen d c,
    fun j h hmarker hfield => getElem_padScratch_zero hlen d c h hmarker (.inl hfield), fun j h h' => ?_,
    fun j h hsize => getElem_padScratch_zero hlen d c h (by omega) (.inr hsize)⟩
  rw [getElem_padScratch_field hlen d c h' h rfl, toNat_getElem_be64Bytes, toNat_lengthBits c hlen]

/-! ### UPDATE_LAST (R178) -/

/-- Settles O27: R178's conditions are UPDATE_LAST's checks, and the counter has room for the padding blocks. -/
theorem updateLastFinalizes : Obligations.UpdateLastFinalizes := by
  rintro s ⟨hinit, hfinal, hfault⟩ hlen hroom hadmit
  have hroom' : s.hash.counter.toNat < 2 ^ 32 - padBlocks s.len := by
    rwa [padBlocks, apply_ite (2 ^ 32 - ·)]
  have hceiling : 64 * s.hash.counter.toNat + s.len < 2 ^ 61 := by omega
  have hv : verdict .updateLast s = .accepted :=
    (verdict_updateLast s).mpr ⟨hfault, hinit, hfinal, hlen, hceiling, hroom', hadmit⟩
  exact ⟨_, exec_accepted hv, finalizedFrom_eq _ _ _ _, toNat_finalizedFrom_counter _ _ _ (by omega), rfl, rfl, rfl,
    ⟨rfl, rfl, rfl, rfl, rfl⟩, rfl⟩

/-! ### What UPDATE_LAST leaves in the buffers (R182) -/

/-- The block of the padded region that ends with the length field. -/
def lastPadBlock (len : Nat) : Fin 2 := if len < 56 then 0 else 1

theorem lastPadBlock_end (len : Nat) : 64 * (lastPadBlock len).val + 64 = paddedSize len := by
  rw [paddedSize_eq, lastPadBlock]
  split <;> rfl

theorem finalizedFrom_data (m : Memory) (src len : Nat) (h : HashState) :
    (finalizedFrom m src len h).data =
      bytesToWordsBE (padBlock (padScratch (memRead m src len) h.counter) (lastPadBlock len)) := by
  rw [finalizedFrom_eq, lastPadBlock]
  split <;> exact HashState.absorb_data _ _

/-- The last 8 bytes of the last padding block are the length field. -/
theorem getElem_padBlock_field {len : Nat} (hlen : len < 64) (d : Vector Byte len) (c : Word) (j : Nat) (hj : j < 8) :
    (padBlock (padScratch d c) (lastPadBlock len))[56 + j] = (be64Bytes (lengthBits c len))[j] := by
  have hend := lastPadBlock_end len
  have hread : (padBlock (padScratch d c) (lastPadBlock len))[56 + j] =
      (padScratch d c)[64 * (lastPadBlock len).val + (56 + j)] := by
    simp [padBlock]
  rw [hread, getElem_padScratch_field hlen d c _ hj (by omega)]

/-- The last two words of the last padding block are the bit length of the message (R182). -/
theorem bitLength_of_finalizedFrom (m : Memory) (src : Nat) {len : Nat} (hlen : len < 64) (h : HashState) :
    (finalizedFrom m src len h).data[14].toNat * 2 ^ 32 + (finalizedFrom m src len h).data[15].toNat =
      (64 * h.counter.toNat + len) * 8 := by
  have field := getElem_padBlock_field hlen (memRead m src len) h.counter
  rw [finalizedFrom_data, getElem_bytesToWordsBE, getElem_bytesToWordsBE]
  calc _ = (lengthBits h.counter len).toNat := by
        rw [← be32_be64Bytes]
        simp only [← field]
    _ = (64 * h.counter.toNat + len) * 8 := by rw [toNat_lengthBits _ hlen, Nat.mul_comm 64]

/-- Settles O28: the last block absorbed ends with the length field, and SCHED copies `data` to the head of `ws`. -/
theorem lastBlockHoldsBitLength : Obligations.LastBlockHoldsBitLength := by
  intro s t hv h
  obtain ⟨-, -, -, hlen, -⟩ := (verdict_updateLast s).mp hv
  have hhash : t.hash = finalizedFrom s.mem s.src s.len s.hash := by
    rw [exec_accepted hv] at h
    injection h with h
    rw [← h, hashAfter]
  rw [hhash]
  exact ⟨bitLength_of_finalizedFrom s.mem s.src hlen s.hash, (isSchedule_finalizedFrom s.mem s.src s.len s.hash).1⟩

end Sys2Proof.Machine
end

section
/-! PROOFS. HASH: what it leaves, what its digest depends on, the manual composition it equals, the lengths it refuses
(R195 to R199). -/

namespace Sys2Proof.Machine

open Sys2Proof.Safety

/-! ### The lengths HASH refuses (R196) -/

/-- The verdict of a refusal stands in the list of checks, at a check that fails (R214). -/
theorem mem_of_firstFailing {l : List Check} {v : Verdict} (hv : v ≠ .accepted) (h : firstFailing l = v) :
    (false, v) ∈ l := by
  induction l with
  | nil => exact absurd h.symm hv
  | cons c l ih =>
    obtain ⟨b, w⟩ := c
    cases b with
    | true => exact List.mem_cons_of_mem _ (ih h)
    | false => exact h ▸ List.mem_cons_self

theorem verdict_hash_eLen {s : State} (hlen : 2 ^ 61 ≤ s.len) : verdict .hash s = .refused .eLen := by
  rw [verdict, acceptanceChecks, lengthBelow, firstFailing_cons, decide_eq_false (by omega)]
  rfl

theorem verdict_hash_eCounter {s : State} (hlo : 2 ^ 38 - 72 ≤ s.len) (hhi : s.len < 2 ^ 61) :
    verdict .hash s = .refused .eCounter := by
  rw [verdict, acceptanceChecks, lengthBelow, withinCounterReach, hashLimit, firstFailing_cons, firstFailing_cons,
    decide_eq_true hhi, decide_eq_false (by omega)]
  rfl

/-- Why HASH is refused: each code belongs to its own check (R214). -/
theorem code_of_hash_refused {s : State} {code : FaultCode} (h : verdict .hash s = .refused code) :
    code = .eLen ∧ 2 ^ 61 ≤ s.len ∨ code = .eCounter ∧ hashLimit < s.len ∨ code = .eAlias ∨ code = .eBus := by
  have hfails := mem_of_firstFailing (by simp) h
  simp only [acceptanceChecks, lengthBelow, withinCounterReach, disjointRanges, admitted, List.mem_cons,
    Prod.mk.injEq, Verdict.refused.injEq, List.not_mem_nil, or_false] at hfails
  rcases hfails with ⟨hlen, hcode⟩ | ⟨hlen, hcode⟩ | ⟨-, hcode⟩ | ⟨-, hcode⟩ | ⟨-, hcode⟩
  · exact .inl ⟨hcode, Nat.not_lt.mp (of_decide_eq_false hlen.symm)⟩
  · exact .inr (.inl ⟨hcode, Nat.not_le.mp (of_decide_eq_false hlen.symm)⟩)
  · exact .inr (.inr (.inl hcode))
  · exact .inr (.inr (.inr hcode))
  · exact .inr (.inr (.inr hcode))

theorem exec_of_refused {i : Instr} {s : State} {code : FaultCode} (h : verdict i s = .refused code) :
    exec i s = .next (raiseFault code s) := by
  rw [exec_eq_conclude, h, conclude]

theorem raiseFault_of_clear (code : FaultCode) {s : State} (h : s.status.fault = false) :
    raiseFault code s = { s with seq := Seq.idle, status := { s.status with fault := true, err := code } } := by
  rw [raiseFault, h]
  rfl

theorem raiseFault_of_faulted (code : FaultCode) {s : State} (h : s.status.fault = true) :
    raiseFault code s = { s with seq := Seq.idle } := by
  rw [raiseFault, h]
  rfl

/-- Settles O34: the length checks stand before every other check of HASH, and the two codes belong to no other. -/
theorem hashRefusesLongMessages : Obligations.HashRefusesLongMessages := by
  refine fun s => ⟨fun hlen hfault => ?_, fun hlo hhi hfault => ?_, fun hlo hfault => ?_, fun hlen => ?_⟩
  · rw [exec_of_refused (verdict_hash_eLen hlen), raiseFault_of_clear _ hfault]
  · rw [exec_of_refused (verdict_hash_eCounter hlo hhi), raiseFault_of_clear _ hfault]
  · rcases Nat.lt_or_ge s.len (2 ^ 61) with hhi | hlen
    · rw [exec_of_refused (verdict_hash_eCounter hlo hhi), raiseFault_of_faulted _ hfault]
    · rw [exec_of_refused (verdict_hash_eLen hlen), raiseFault_of_faulted _ hfault]
  · have hshort : ∀ code, verdict .hash s = .refused code → code = .eAlias ∨ code = .eBus := fun code h => by
      rcases code_of_hash_refused h with ⟨-, hlong⟩ | ⟨-, hlong⟩ | hcode
      · omega
      · exact absurd hlen (Nat.not_le.mpr hlong)
      · exact hcode
    exact ⟨fun h => by simpa using hshort _ h, fun h => by simpa using hshort _ h⟩

/-! ### What HASH leaves (R195, R197) -/

/-- What an accepted command leaves in the four fields it may change. -/
theorem fields_of_accepted {i : Instr} {s t : State} (hv : verdict i s = .accepted) (h : exec i s = .next t) :
    t.hash = hashAfter s i ∧ t.held = heldAfter s i ∧ t.status = statusAfter s i ∧ t.mem = memAfter s i := by
  obtain rfl := Host.Outcome.next.inj ((exec_accepted hv).symm.trans h)
  exact ⟨rfl, rfl, rfl, rfl⟩

/-- INIT clears the counter, so that after `n` full blocks it is `n` (R195). -/
theorem toNat_absorbedFrom_load_counter (m : Memory) (src : Nat) {n : Nat} (hn : n < 2 ^ 32) (h : HashState) :
    (absorbedFrom m src n h.load).counter.toNat = n := by
  have hzero : h.load.counter.toNat = 0 := congrArg BitVec.toNat (HashState.load_counter h)
  rw [toNat_absorbedFrom_counter _ _ _ (by omega), hzero, Nat.zero_add]

/-- The longest message that HASH accepts fills the counter up to `2^32 - 1`. -/
theorem blocks_lt_of_len {len : Nat} (hlen : len ≤ 2 ^ 38 - 73) : len / 64 + padBlocks (len % 64) < 2 ^ 32 := by
  unfold padBlocks
  split <;> omega

theorem toNat_hashAfter_hash_counter {s : State} (hlen : s.len ≤ 2 ^ 38 - 73) :
    (hashAfter s .hash).counter.toNat = s.len / 64 + padBlocks (s.len % 64) := by
  have hroom := blocks_lt_of_len hlen
  have hblocks := toNat_absorbedFrom_load_counter s.mem s.src (n := s.len / 64) (by omega) s.hash
  rw [hashAfter, toNat_finalizedFrom_counter _ _ _ (by omega), hblocks]

theorem statusWord_statusAfter_hash (s : State) : statusWord (statusAfter s .hash) = 0x00000003#32 := by
  rw [statusAfter]
  decide

/-- Settles O30: HASH's conditions are its checks, and its effect is INIT, the blocks, and the digest stored. -/
theorem hashHashesMessage : Obligations.HashHashesMessage := by
  rintro s hwf ⟨hlen, hclear, hread, hwrite⟩
  have hv : verdict .hash s = .accepted :=
    (verdict_hash s).mpr ⟨by omega, hlen, decide_eq_false hclear, hread, hwrite⟩
  refine ⟨_, exec_accepted hv, statusWord_statusAfter_hash s, hashAfter_k s .hash,
    toNat_hashAfter_hash_counter hlen, fun i hi j hj => ?_, fun a ha => read_memAfter_outside .hash s ha,
    memAfter_wf .hash hwf, rfl, ⟨rfl, rfl, rfl, rfl, rfl⟩, rfl⟩
  rw [← wordByte_toNat, ← read_digest hwf s.dst (hashAfter s .hash).whash hi hj]
  rfl

/-! ### What the digest depends on (R199) -/

/-- The padded remainder is a function of its bytes, wherever they stand. -/
theorem finalizedFrom_of_memRead_eq {m m' : Memory} {src src' len : Nat}
    (hm : memRead m src len = memRead m' src' len) (h : HashState) :
    finalizedFrom m src len h = finalizedFrom m' src' len h := by
  rw [finalizedFrom_eq, finalizedFrom_eq, hm]

/-- The full blocks are absorbed by their bytes, wherever they stand. -/
theorem absorbedFrom_of_memRead_eq {m m' : Memory} {src src' n : Nat}
    (hm : ∀ i < n, memRead m (src + 64 * i) 64 = memRead m' (src' + 64 * i) 64) (h : HashState) :
    absorbedFrom m src n h = absorbedFrom m' src' n h := by
  induction n with
  | zero => rw [absorbedFrom_zero, absorbedFrom_zero]
  | succ n ih =>
    rw [absorbedFrom_succ, absorbedFrom_succ, ih fun i hi => hm i (by omega), hm n (by omega)]

/-- Equal messages have equal parts. -/
theorem memRead_part_eq {m m' : Memory} {src src' len : Nat} (h : bytesAt m src len = bytesAt m' src' len) {i k : Nat}
    (hk : i + k ≤ len) : memRead m (src + i) k = memRead m' (src' + i) k := by
  apply Vector.toList_inj.mp
  rw [toList_memRead_part m src len i k hk, toList_memRead_part m' src' len i k hk, h]

/-- The hash state that HASH leaves depends on the message bytes alone: `load` hides the hash state before it. -/
theorem hashAfter_hash_congr {s s' : State} (h : bytesAt s.mem s.src s.len = bytesAt s'.mem s'.src s'.len) :
    hashAfter s .hash = hashAfter s' .hash := by
  have hlen : s.len = s'.len := by simpa [bytesAt] using congrArg List.length h
  rw [← hlen] at h
  have hblocks : ∀ g, absorbedFrom s.mem s.src (s.len / 64) g = absorbedFrom s'.mem s'.src (s.len / 64) g :=
    absorbedFrom_of_memRead_eq fun i hi => memRead_part_eq h (by omega)
  have hrest := memRead_part_eq h (i := 64 * (s.len / 64)) (k := s.len % 64) (by omega)
  rw [hashAfter, hashAfter, ← hlen, finalizedFrom_of_memRead_eq hrest, hblocks]
  exact ((s'.hash.sameChain_load s.hash).absorbedFrom _ _ _).finalizedFrom_congr _ _ _

/-- Settles O33: the hash state that HASH leaves is a function of the message, and the stored bytes are its `whash`. -/
theorem hashIsPureFunction : Obligations.HashIsPureFunction := by
  intro s t s' t' hwf hwf' hv hv' he he' hmessage
  have hhash := hashAfter_hash_congr hmessage
  refine ⟨?_, by rw [bytesAt_dst_of_hash hwf hv he, bytesAt_dst_of_hash hwf' hv' he', hhash]⟩
  rw [(fields_of_accepted hv he).1, (fields_of_accepted hv' he').1, hhash]

/-! ### The manual composition (R198) -/

theorem toNat_blocks (len : BitVec 64) : (len / 64).toNat = len.toNat / 64 := BitVec.toNat_udiv

theorem toNat_rest (len : BitVec 64) : (len % 64).toNat = len.toNat % 64 := BitVec.toNat_umod

section Operands

variable {s t : State} {src dst len : BitVec 64}

theorem updateLast_withOperands (hv : verdict .updateLast (withOperands src dst len s) = .accepted)
    (h : exec .updateLast (withOperands src dst len s) = .next t) :
    t.hash = finalizedFrom s.mem src.toNat len.toNat s.hash ∧ t.held = s.held.afterAbsorb ∧
      t.status = { s.status with final := true } ∧ t.mem = s.mem := by
  obtain ⟨hhash, hheld, hstatus, hmem⟩ := fields_of_accepted hv h
  simp [hhash, hheld, hstatus, hmem, hashAfter, heldAfter, statusAfter, memAfter]

theorem finish_withOperands (hv : verdict .finish (withOperands src dst len s) = .accepted)
    (h : exec .finish (withOperands src dst len s) = .next t) :
    t.hash = s.hash ∧ t.held = s.held ∧ t.status = s.status ∧
      t.mem = memWrite s.mem dst.toNat (wordsToBytesBE s.hash.whash) := by
  obtain ⟨hhash, hheld, hstatus, hmem⟩ := fields_of_accepted hv h
  simp [hhash, hheld, hstatus, hmem, hashAfter, heldAfter, statusAfter, memAfter]

/-- The checks of HASH with its operands written out. -/
theorem verdict_hash_withOperands : verdict .hash (withOperands src dst len s) = .accepted ↔
    len.toNat ≤ 2 ^ 38 - 73 ∧ rangesOverlap src.toNat len.toNat dst.toNat = false ∧
      admits s.platform src.toNat len.toNat .read = true ∧ admits s.platform dst.toNat 32 .write = true := by
  simp only [verdict_hash, src_withOperands, dst_withOperands, len_withOperands, withOperands_platform,
    and_iff_right_iff_imp]
  omega

/-- The remainder stands where the host writes SRC for it, unless it is empty: only then can the message end at `2^64`,
where SRC wraps. -/
theorem remainder_src (hwf : s.platform.wellFormed = true)
    (hv : verdict .hash (withOperands src dst len s) = .accepted) :
    len.toNat % 64 = 0 ∨ (src + 64 * (len / 64)).toNat = src.toNat + 64 * (len.toNat / 64) := by
  rcases Nat.eq_zero_or_pos (len.toNat % 64) with hr | hr
  · exact .inl hr
  · obtain ⟨-, -, hread, -⟩ := verdict_hash_withOperands.mp hv
    have haw : s.platform.aw ≤ 64 := by
      simp only [Platform.wellFormed, Platform.awOk, Bool.and_eq_true, decide_eq_true_eq] at hwf
      omega
    have htop : src.toNat + len.toNat ≤ 2 ^ 64 :=
      (admits_inside (by omega) hread).1.trans (Nat.pow_le_pow_right (by omega) haw)
    right
    rw [BitVec.toNat_add, BitVec.toNat_mul, toNat_blocks]
    simp only [BitVec.ofNat_eq_ofNat, BitVec.toNat_ofNat]
    omega

/-- What HASH leaves, with SRC of the remainder as a host writes it. -/
theorem hash_withOperands (hwf : s.platform.wellFormed = true)
    (hv : verdict .hash (withOperands src dst len s) = .accepted)
    (h : exec .hash (withOperands src dst len s) = .next t) :
    t.hash = finalizedFrom s.mem (src + 64 * (len / 64)).toNat (len % 64).toNat
        (absorbedFrom s.mem src.toNat (len / 64).toNat s.hash.load) ∧
      t.held = ⟨true, true, true, true, true, true⟩ ∧ t.status = ⟨true, true, false, .eNone⟩ ∧
      t.mem = memWrite s.mem dst.toNat (wordsToBytesBE t.hash.whash) := by
  obtain ⟨hhash, hheld, hstatus, hmem⟩ := fields_of_accepted hv h
  refine ⟨?_, hheld, hstatus, by rw [hmem, hhash, memAfter, dst_withOperands, withOperands_mem]⟩
  rw [hhash, hashAfter, withOperands_mem, withOperands_hash, src_withOperands, len_withOperands, toNat_blocks,
    toNat_rest]
  rcases remainder_src hwf hv with hr | haddr
  · have hempty : memRead s.mem (src.toNat + 64 * (len.toNat / 64)) 0 =
        memRead s.mem (src + 64 * (len / 64)).toNat 0 :=
      Vector.toList_inj.mp rfl
    rw [hr, finalizedFrom_of_memRead_eq hempty]
  · rw [haddr]

/-- UPDATE_MULTI of the full blocks is accepted in the session that INIT has begun. -/
theorem verdict_updateMulti_of_hash (hv : verdict .hash (withOperands src dst len s) = .accepted)
    (hstatus : t.status = statusAfterInit) (hcounter : t.hash.counter = 0) (hplatform : t.platform = s.platform) :
    verdict .updateMulti (withOperands src dst (len / 64) t) = .accepted := by
  obtain ⟨hlen, hclear, hread, hwrite⟩ := verdict_hash_withOperands.mp hv
  have hpart := isHashPart_blocks (base := src.toNat) (size := len.toNat) (i := 0) (m := len.toNat / 64) (by omega)
  have hadmits := admits_hashPart hread hlen hwrite hclear hpart
  have hroom : (0 : Word).toNat < 2 ^ 32 - len.toNat / 64 := by
    simp only [BitVec.ofNat_eq_ofNat, BitVec.toNat_ofNat]
    omega
  rw [verdict_updateMulti, withOperands_status, withOperands_hash, withOperands_platform, src_withOperands,
    len_withOperands, toNat_blocks, hstatus, hcounter, hplatform]
  exact ⟨rfl, rfl, rfl, hroom, hadmits⟩

/-- UPDATE_LAST of the remainder is accepted after the full blocks. -/
theorem verdict_updateLast_of_hash (hwf : s.platform.wellFormed = true)
    (hv : verdict .hash (withOperands src dst len s) = .accepted) (hstatus : t.status = statusAfterInit)
    (hcounter : t.hash.counter.toNat = len.toNat / 64) (hplatform : t.platform = s.platform) :
    verdict .updateLast (withOperands (src + 64 * (len / 64)) dst (len % 64) t) = .accepted := by
  obtain ⟨hlen, hclear, hread, hwrite⟩ := verdict_hash_withOperands.mp hv
  have hadmits : admits s.platform (src + 64 * (len / 64)).toNat (len.toNat % 64) .read = true := by
    rcases remainder_src hwf hv with hr | haddr
    · rw [hr, admits_zero]
    · rw [haddr]
      exact admits_hashPart hread hlen hwrite hclear (isHashPart_rest _ _)
  have hroom := blocks_lt_of_len hlen
  rw [verdict_updateLast, withOperands_status, withOperands_hash, withOperands_platform, src_withOperands,
    len_withOperands, toNat_rest, hstatus, hcounter, hplatform]
  exact ⟨rfl, rfl, rfl, by omega, by omega, by omega, hadmits⟩

theorem verdict_finish_of_hash (hv : verdict .hash (withOperands src dst len s) = .accepted)
    (hfault : t.status.fault = false) (hinit : t.status.initDone = true) (hplatform : t.platform = s.platform) :
    verdict .finish (withOperands src dst len t) = .accepted := by
  obtain ⟨-, -, -, hwrite⟩ := verdict_hash_withOperands.mp hv
  rw [verdict_finish, withOperands_status, withOperands_platform, dst_withOperands, hplatform]
  exact ⟨hfault, hinit, hwrite⟩

end Operands

/-- Settles O31: INIT begins a session in which the checks of HASH give those of the other three commands, and what each
of the four leaves is a stage of HASH's own effect. -/
theorem hashEqualsManualComposition : Obligations.HashEqualsManualComposition := by
  intro s t src dst len hwf hv h
  obtain ⟨hhash, hheld, hstatus, hmem⟩ := hash_withOperands hwf hv h
  have hlen := (verdict_hash_withOperands.mp hv).1
  obtain ⟨s1, h1⟩ : ∃ s1, exec .init s = .next s1 := ⟨_, exec_init s⟩
  obtain ⟨hhash1, hheld1, hstatus1, hmem1⟩ : s1.hash = s.hash.load ∧ s1.held = s.held.afterInit ∧
      s1.status = statusAfterInit ∧ s1.mem = s.mem := fields_of_accepted (verdict_init s) h1
  have hplatform1 := exec_platform h1
  have hv2 := verdict_updateMulti_of_hash hv hstatus1 (hhash1 ▸ HashState.load_counter s.hash) hplatform1
  obtain ⟨s2, h2⟩ : ∃ s2, exec .updateMulti (withOperands src dst (len / 64) s1) = .next s2 :=
    ⟨_, exec_of_accepted hv2⟩
  obtain ⟨hhash2, hheld2, hstatus2, hmem2⟩ := updateMulti_withOperands hv2 h2
  rw [hhash1, hmem1] at hhash2
  have hplatform2 : s2.platform = s.platform := by rw [exec_platform h2, withOperands_platform, hplatform1]
  have hcounter2 : s2.hash.counter.toNat = len.toNat / 64 := by
    rw [hhash2, toNat_blocks]
    exact toNat_absorbedFrom_load_counter _ _ (by omega) _
  have hv3 := verdict_updateLast_of_hash hwf hv (hstatus2.trans hstatus1) hcounter2 hplatform2
  obtain ⟨s3, h3⟩ : ∃ s3, exec .updateLast (withOperands (src + 64 * (len / 64)) dst (len % 64) s2) = .next s3 :=
    ⟨_, exec_of_accepted hv3⟩
  obtain ⟨hhash3, hheld3, hstatus3, hmem3⟩ := updateLast_withOperands hv3 h3
  rw [hstatus2, hstatus1] at hstatus3
  have hplatform3 : s3.platform = s.platform := by rw [exec_platform h3, withOperands_platform, hplatform2]
  have hv4 := verdict_finish_of_hash hv (hstatus3 ▸ rfl) (hstatus3 ▸ rfl) hplatform3
  obtain ⟨s4, h4⟩ : ∃ s4, exec .finish (withOperands src dst len s3) = .next s4 := ⟨_, exec_of_accepted hv4⟩
  obtain ⟨hhash4, hheld4, hstatus4, hmem4⟩ := finish_withOperands hv4 h4
  have hfinal : s3.hash = t.hash := by rw [hhash3, hhash2, hmem2, hmem1, hhash]
  refine ⟨s1, s2, s3, s4, h1, hv2, h2, hv3, h3, hv4, h4, hhash4.trans hfinal, ?_, ?_, ?_⟩
  · rw [hheld4, hheld3, hheld2, hheld1, hheld]
    split <;> rfl
  · rw [hstatus4, hstatus3, hstatus]
    rfl
  · rw [hmem4, hmem3, hmem2, hmem1, hfinal, hmem]

/-! ### The known answers (R195) -/

/-- A HASH whose operands and message are given stores the digest written over lists. -/
theorem exec_hash_stores {s : State} {src dst len : BitVec 64} {digest : List Byte} (hwf : s.mem.wf = true)
    (hv : verdict .hash (withOperands src dst len s) = .accepted)
    (hd : digestOf (bytesAt s.mem src.toNat len.toNat) = digest) :
    ∃ t, exec .hash (withOperands src dst len s) = .next t ∧ bytesAt t.mem dst.toNat 32 = digest := by
  refine ⟨_, exec_of_accepted hv, ?_⟩
  have h := hashStoresReferenceDigest _ _ (by rwa [withOperands_mem]) hv (exec_of_accepted hv)
  rwa [src_withOperands, dst_withOperands, len_withOperands, withOperands_mem, hd] at h

/-- Settles O35: both messages are accepted from reset, and the digest over lists evaluates to the printed bytes. -/
theorem knownAnswers : Obligations.KnownAnswers :=
  ⟨exec_hash_stores (by decide) (by decide +kernel) (by decide +kernel),
    exec_hash_stores (by decide) (by decide +kernel) (by decide +kernel)⟩

end Sys2Proof.Machine
end

section
/-! PROOFS. How a write to CMD ends: the acceptance table, what a refusal leaves, and what FAULT tells the host (R87,
R212 to R218, R221, R224, R229). -/

namespace Sys2Proof.Machine

/-! ### Illegal words (R87, R213) -/

theorem toNat_opcodeField (c : Word) : (opcodeField c).toNat = c.toNat % 256 :=
  BitVec.extractLsb'_toNat 0 8 c

theorem toNat_zeroField (c : Word) : (zeroField c).toNat = c.toNat / 256 := by
  rw [zeroField, BitVec.extractLsb'_toNat, Nat.shiftRight_eq_div_pow]
  omega

/-- The illegal words of R87, by the value of the word. -/
theorem exists_decode_eq_error {c : Word} (h : c.toNat / 256 ≠ 0 ∨ c.toNat % 256 = 0 ∨ 7 ≤ c.toNat % 256) :
    ∃ e, decode c = .error e := by
  rw [← toNat_zeroField, ← toNat_opcodeField] at h
  by_cases hzero : zeroField c = 0
  · exact ⟨_, decode_of_opcodeField hzero (h.resolve_left (by simp [hzero]))⟩
  · exact ⟨_, decode_of_zeroField_ne hzero⟩

theorem commandWrite_of_error {c : Word} {e : Illegal} (h : decode c = .error e) (s : State) :
    commandWrite c s = .next (raiseFault .eIllegal s) := by
  unfold commandWrite
  rw [h]

/-! ### What a refusal leaves (R212) -/

theorem raiseFault_eq (code : FaultCode) (s : State) :
    raiseFault code s = { s with
      seq := Seq.idle
      status := if s.status.fault then s.status else { s.status with fault := true, err := code } } := by
  cases hfault : s.status.fault
  · exact raiseFault_of_clear code hfault
  · exact raiseFault_of_faulted code hfault

/-- Settles O3: the word decodes to no command, and the write ends in `raiseFault`. -/
theorem illegalWordIsRefused : Obligations.IllegalWordIsRefused := by
  intro s c rest hhost hillegal
  obtain ⟨e, he⟩ := exists_decode_eq_error hillegal
  rw [step_of_host hhost, perform, registerWrite_cmd, commandWrite_of_error he, raiseFault_eq]

theorem exec_of_refusedFaulted {i : Instr} {s : State} (h : verdict i s = .refusedFaulted) :
    exec i s = .next (toIdle s) := by
  rw [exec_eq_conclude, h, conclude]

/-- A refusal while FAULT = 1 moves the sequencer to IDLE and does nothing more, with a code or without one. -/
theorem exec_refused_of_faulted {i : Instr} {s : State} (hv : verdict i s ≠ .accepted)
    (hfault : s.status.fault = true) : exec i s = .next { s with seq := Seq.idle } := by
  cases h : verdict i s with
  | accepted => exact absurd h hv
  | refusedFaulted => exact exec_of_refusedFaulted h
  | refused code => rw [exec_of_refused h, raiseFault_of_faulted code hfault]

/-- While FAULT = 0 a refusal has a code. -/
theorem exists_code_of_refused_of_clear {i : Instr} {s : State} (hv : verdict i s ≠ .accepted)
    (hfault : s.status.fault = false) : ∃ code, verdict i s = .refused code := by
  cases h : verdict i s with
  | accepted => exact absurd h hv
  | refusedFaulted => simp [fault_of_refusedFaulted h] at hfault
  | refused code => exact ⟨code, rfl⟩

/-- Settles O8: with FAULT = 1 no code is recorded, with FAULT = 0 the code of the check that fails, and no check looks
at MEM. -/
theorem refusalChangesOnlyFaultAndErr : Obligations.RefusalChangesOnlyFaultAndErr := by
  refine ⟨fun i s hv => ⟨exec_refused_of_faulted hv, fun hfault => ?_, fun m => verdict_congr rfl rfl rfl rfl⟩,
    fun c e s he => ⟨fun hfault => ?_, fun hfault => ?_⟩⟩
  · obtain ⟨code, hcode⟩ := exists_code_of_refused_of_clear hv hfault
    exact ⟨code, (code_of_refused hcode).1, hcode, by rw [exec_of_refused hcode, raiseFault_of_clear code hfault]⟩
  · rw [commandWrite_of_error he, raiseFault_of_faulted _ hfault]
  · rw [commandWrite_of_error he, raiseFault_of_clear _ hfault]

/-- Settles O9: an accepted command leaves FAULT = 0; a refused one sets FAULT or found it set. -/
theorem faultClearIffAccepted : Obligations.FaultClearIffAccepted := by
  intro i s t h
  rcases exec_cases h with ⟨hv, rfl⟩ | ⟨hv, rfl⟩ | ⟨code, hv, rfl⟩
  · simp [hv, statusAfter_fault hv]
  · simp [hv, fault_of_refusedFaulted hv]
  · simp [hv]

/-! ### The acceptance table (R214) -/

/-- The state in which a command with this verdict ends. -/
def concluded (v : Verdict) (run : State → State) (s : State) : State :=
  match v with
  | .accepted => toIdle (run s)
  | .refusedFaulted => toIdle s
  | .refused code => raiseFault code s

theorem conclude_eq_next (v : Verdict) (run : State → State) (s : State) :
    conclude v run s = .next (concluded v run s) := by
  cases v <;> rfl

/-- A command ends in the state its list of checks decides. -/
theorem exec_eq_next (i : Instr) (s : State) :
    exec i s = .next (concluded (firstFailing (acceptanceChecks s i)) (effectOf i) s) := by
  rw [exec_eq_conclude, conclude_eq_next, verdict]

section Checks

variable (run : State → State) (s : State) (rest : List Check)

theorem concluded_nil : concluded (firstFailing []) run s = toIdle (run s) := rfl

/-- One row of the table: where the check fails, its verdict decides, and otherwise the checks after it. -/
theorem concluded_cons {p : Prop} [Decidable p] {b : Bool} {v : Verdict} (hfails : b = false ↔ p) :
    concluded (firstFailing ((b, v) :: rest)) run s =
      if p then concluded v run s else concluded (firstFailing rest) run s := by
  cases b with
  | true => rw [if_neg (mt hfails.mpr Bool.true_eq_false_eq_False), firstFailing_cons, if_pos rfl]
  | false => rw [if_pos (hfails.mp rfl), firstFailing_cons, if_neg Bool.false_ne_true]

theorem concluded_notFaulted : concluded (firstFailing (notFaulted s :: rest)) run s =
    if s.status.fault then toIdle s else concluded (firstFailing rest) run s :=
  concluded_cons run s rest (Bool.not_eq_false' _).to_iff

theorem concluded_initialised : concluded (firstFailing (initialised s :: rest)) run s =
    if s.status.initDone = false then raiseFault .eUninit s else concluded (firstFailing rest) run s :=
  concluded_cons run s rest Iff.rfl

theorem concluded_notFinal : concluded (firstFailing (notFinal s :: rest)) run s =
    if s.status.final then raiseFault .eSeq s else concluded (firstFailing rest) run s :=
  concluded_cons run s rest (Bool.not_eq_false' _).to_iff

theorem concluded_lengthBelow (len bound : Nat) : concluded (firstFailing (lengthBelow len bound :: rest)) run s =
    if ¬ len < bound then raiseFault .eLen s else concluded (firstFailing rest) run s :=
  concluded_cons run s rest decide_eq_false_iff_not

theorem concluded_counterRoom (n : Nat) : concluded (firstFailing (counterRoom s n :: rest)) run s =
    if ¬ s.hash.counter.toNat < 2 ^ 32 - n then raiseFault .eCounter s else concluded (firstFailing rest) run s :=
  concluded_cons run s rest decide_eq_false_iff_not

/-- For `2^32 < n` the integer difference is negative and the natural one 0: no counter is below either (R8, R216). -/
theorem concluded_counterRoom_int (n : Nat) : concluded (firstFailing (counterRoom s n :: rest)) run s =
    if ¬ (s.hash.counter.toNat : Int) < 2 ^ 32 - (n : Int) then raiseFault .eCounter s
    else concluded (firstFailing rest) run s :=
  concluded_cons run s rest (decide_eq_false_iff_not.trans (by omega))

theorem concluded_counterRoom_padBlocks (len : Nat) :
    concluded (firstFailing (counterRoom s (padBlocks len) :: rest)) run s =
      if ¬ s.hash.counter.toNat < (if len < 56 then 2 ^ 32 - 1 else 2 ^ 32 - 2) then raiseFault .eCounter s
      else concluded (firstFailing rest) run s := by
  rw [concluded_counterRoom, padBlocks, apply_ite (2 ^ 32 - ·)]

theorem concluded_withinCounterReach (len : Nat) :
    concluded (firstFailing (withinCounterReach len :: rest)) run s =
      if ¬ len ≤ 2 ^ 38 - 73 then raiseFault .eCounter s else concluded (firstFailing rest) run s :=
  concluded_cons run s rest decide_eq_false_iff_not

theorem concluded_disjointRanges (src len dst : Nat) :
    concluded (firstFailing (disjointRanges src len dst :: rest)) run s =
      if 0 < len ∧ src < dst + 32 ∧ dst < src + len then raiseFault .eAlias s
      else concluded (firstFailing rest) run s :=
  concluded_cons run s rest ((Bool.not_eq_false' _).to_iff.trans decide_eq_true_iff)

theorem concluded_admitted (addr n : Nat) (kind : AccessKind) :
    concluded (firstFailing (admitted s addr n kind :: rest)) run s =
      if admits s.platform addr n kind = false then raiseFault .eBus s else concluded (firstFailing rest) run s :=
  concluded_cons run s rest Iff.rfl

end Checks

/-- Settles O6: each command's checks, row by row. -/
theorem checkTableDecides : Obligations.CheckTableDecides := by
  refine fun s => ⟨fun c e he => commandWrite_of_error he s, fun c i hi => commandWrite_of_ok hi s, exec_init s,
    ?update, ?updateMulti, ?updateLast, ?finish, ?hash⟩ <;> rw [exec_eq_next, acceptanceChecks, effectOf]
  case update =>
    rw [concluded_notFaulted, concluded_initialised, concluded_notFinal, concluded_counterRoom, concluded_admitted,
      concluded_nil]
  case updateMulti =>
    rw [concluded_notFaulted, concluded_initialised, concluded_notFinal, concluded_counterRoom_int,
      concluded_admitted, concluded_nil]
  case updateLast =>
    rw [concluded_notFaulted, concluded_initialised, concluded_notFinal, concluded_lengthBelow,
      concluded_lengthBelow, concluded_counterRoom_padBlocks, concluded_admitted, concluded_nil]
  case finish => rw [concluded_notFaulted, concluded_initialised, concluded_admitted, concluded_nil]
  case hash =>
    rw [concluded_lengthBelow, concluded_withinCounterReach, concluded_disjointRanges, concluded_admitted,
      concluded_admitted, concluded_nil]

/-! ### The engine goes on (R221, R229) -/

/-- Settles O5: the engine acts on the host's actions alone. -/
theorem idleEngineDoesNothing : Obligations.IdleEngineDoesNothing := by
  intro s hhost
  rw [step, nextAction, hhost]

/-- Settles O7: whichever check decides, the command ends in a state. -/
theorem commandsNeverStop : Obligations.CommandsNeverStop :=
  fun i s => ⟨_, exec_eq_next i s⟩

end Sys2Proof.Machine
end
